-- ==== Sys2Proof/Word.lean ====
section
/-! DEFINITION. The words of the machine: the widths of spec/00_scope.md R7 and R10. -/

namespace Sys2Proof

/-- A `u8`: a memory cell, a general register, a timer, an immediate `kk` (R7, R10). -/
abbrev Byte := BitVec 8

/-- A `u16`: an instruction word, `PC`, `I`, a stack slot (R7, R10). -/
abbrev Word := BitVec 16

/-- A 4-bit field of an instruction word: `x`, `y` or `n` (30_encoding.md R101). -/
abbrev Nibble := BitVec 4

/-- The 12-bit address field `nnn` (30_encoding.md R101). -/
abbrev Addr12 := BitVec 12

end Sys2Proof
end

