-- ==== Sys2Proof/Syntax.lean ====
section
/-! DEFINITION. The 35 instructions of spec/opcode_table.json (30_encoding.md R104), one constructor a row. A
constructor keeps every field its row leaves free, the ignored ones too (R105), so that a word is recovered whole. -/

namespace Sys2Proof

/-- The instructions of `CHIP-8/35` (00_scope.md R2, R3). -/
inductive Instr where
  /-- `00E0`: clear the display. -/
  | cls
  /-- `00EE`: return from subroutine. -/
  | ret
  /-- `0nnn` other than `00E0` and `00EE`: no-op. -/
  | sys (nnn : Addr12)
  /-- `1nnn`: jump. -/
  | jp (nnn : Addr12)
  /-- `2nnn`: call subroutine. -/
  | call (nnn : Addr12)
  /-- `3xkk`: skip if equal to byte. -/
  | seImm (x : Nibble) (kk : Byte)
  /-- `4xkk`: skip if not equal to byte. -/
  | sneImm (x : Nibble) (kk : Byte)
  /-- `5xy0`: skip if registers equal. -/
  | seReg (x y : Nibble)
  /-- `6xkk`: load immediate. -/
  | ldImm (x : Nibble) (kk : Byte)
  /-- `7xkk`: add immediate. -/
  | addImm (x : Nibble) (kk : Byte)
  /-- `8xy0`: copy register. -/
  | ldReg (x y : Nibble)
  /-- `8xy1`: bitwise OR. -/
  | orReg (x y : Nibble)
  /-- `8xy2`: bitwise AND. -/
  | andReg (x y : Nibble)
  /-- `8xy3`: bitwise XOR. -/
  | xorReg (x y : Nibble)
  /-- `8xy4`: add with carry out. -/
  | addReg (x y : Nibble)
  /-- `8xy5`: subtract. -/
  | sub (x y : Nibble)
  /-- `8xy6`: shift right; `y` is ignored. -/
  | shr (x y : Nibble)
  /-- `8xy7`: reverse subtract. -/
  | subn (x y : Nibble)
  /-- `8xyE`: shift left; `y` is ignored. -/
  | shl (x y : Nibble)
  /-- `9xy0`: skip if registers differ. -/
  | sneReg (x y : Nibble)
  /-- `Annn`: load index. -/
  | ldI (nnn : Addr12)
  /-- `Bnnn`: jump with offset `V[0]`. -/
  | jpV0 (nnn : Addr12)
  /-- `Cxkk`: random byte. -/
  | rnd (x : Nibble) (kk : Byte)
  /-- `Dxyn`: draw sprite. -/
  | drw (x y n : Nibble)
  /-- `Ex9E`: skip if key pressed. -/
  | skp (x : Nibble)
  /-- `ExA1`: skip if key not pressed. -/
  | sknp (x : Nibble)
  /-- `Fx07`: read delay timer. -/
  | ldVDt (x : Nibble)
  /-- `Fx0A`: key check. -/
  | ldVK (x : Nibble)
  /-- `Fx15`: set delay timer. -/
  | ldDtV (x : Nibble)
  /-- `Fx18`: set sound timer. -/
  | ldStV (x : Nibble)
  /-- `Fx1E`: add to index. -/
  | addIV (x : Nibble)
  /-- `Fx29`: glyph address. -/
  | ldFV (x : Nibble)
  /-- `Fx33`: store BCD. -/
  | ldBV (x : Nibble)
  /-- `Fx55`: store registers. -/
  | ldMemV (x : Nibble)
  /-- `Fx65`: load registers. -/
  | ldVMem (x : Nibble)
deriving DecidableEq, Repr

end Sys2Proof
end

