-- ==== Sys2Proof/WellFormed.lean ====
section
/-! DEFINITION. Which instructions some word encodes. Every field takes every value (30_encoding.md R104), but for
`0nnn`, whose row excludes the words `00E0` and `00EE`: those two are `CLS` and `RET`. -/

namespace Sys2Proof

/-- Some word decodes to the instruction (R104: "Only family 0 has overlapping rows"). -/
def Instr.wf : Instr → Bool
  | .sys nnn => nnn != 0x0E0#12 && nnn != 0x0EE#12
  | .cls | .ret => true
  | .jp _ | .call _ | .ldI _ | .jpV0 _ => true
  | .seImm _ _ | .sneImm _ _ | .ldImm _ _ | .addImm _ _ | .rnd _ _ => true
  | .seReg _ _ | .sneReg _ _ => true
  | .ldReg _ _ | .orReg _ _ | .andReg _ _ | .xorReg _ _ | .addReg _ _ => true
  | .sub _ _ | .shr _ _ | .subn _ _ | .shl _ _ => true
  | .drw _ _ _ => true
  | .skp _ | .sknp _ => true
  | .ldVDt _ | .ldVK _ | .ldDtV _ | .ldStV _ | .addIV _ | .ldFV _ => true
  | .ldBV _ | .ldMemV _ | .ldVMem _ => true

end Sys2Proof
end

