-- ==== Sys2Proof/Decode.lean ====
section
/-! DEFINITION. The fields of a word (30_encoding.md R101), the decoder (R103), the encoder (R104's patterns), the
opcode table (R104's masks and matches), and the byte forms of both. -/

namespace Sys2Proof

/-- Why the decoder gives no instruction. -/
inductive DecodeError where
  /-- The word matches no pattern (R106): `Unknown` of R103. -/
  | unknownOpcode (word : Word)
  /-- Fewer than the two bytes of a word are there (R100); a fetch never gives that. -/
  | truncated
deriving DecidableEq, Repr

/-! ### Fields (R101) -/

/-- `f = w[15:12]`, the family. -/
def famField (w : Word) : Nibble := w.extractLsb' 12 4

/-- `x = w[11:8]`. -/
def xField (w : Word) : Nibble := w.extractLsb' 8 4

/-- `y = w[7:4]`. -/
def yField (w : Word) : Nibble := w.extractLsb' 4 4

/-- `n = w[3:0]`. -/
def nField (w : Word) : Nibble := w.extractLsb' 0 4

/-- `kk = w[7:0]`. -/
def kkField (w : Word) : Byte := w.extractLsb' 0 8

/-- `nnn = w[11:0]`. -/
def nnnField (w : Word) : Addr12 := w.extractLsb' 0 12

/-! ### The decoder (R103) -/

/-- Family 0: `00E0` and `00EE` win over `0nnn`. -/
def decodeFamily0 (w : Word) : Instr :=
  if w = 0x00E0#16 then .cls else if w = 0x00EE#16 then .ret else .sys (nnnField w)

/-- Family 8, by `n`. -/
def decodeFamily8 (w : Word) : Except DecodeError Instr :=
  match (nField w).toNat with
  | 0x0 => .ok (.ldReg (xField w) (yField w))
  | 0x1 => .ok (.orReg (xField w) (yField w))
  | 0x2 => .ok (.andReg (xField w) (yField w))
  | 0x3 => .ok (.xorReg (xField w) (yField w))
  | 0x4 => .ok (.addReg (xField w) (yField w))
  | 0x5 => .ok (.sub (xField w) (yField w))
  | 0x6 => .ok (.shr (xField w) (yField w))
  | 0x7 => .ok (.subn (xField w) (yField w))
  | 0xE => .ok (.shl (xField w) (yField w))
  | _ => .error (.unknownOpcode w)

/-- Family E, by `kk`. -/
def decodeFamilyE (w : Word) : Except DecodeError Instr :=
  match (kkField w).toNat with
  | 0x9E => .ok (.skp (xField w))
  | 0xA1 => .ok (.sknp (xField w))
  | _ => .error (.unknownOpcode w)

/-- Family F, by `kk`. -/
def decodeFamilyF (w : Word) : Except DecodeError Instr :=
  match (kkField w).toNat with
  | 0x07 => .ok (.ldVDt (xField w))
  | 0x0A => .ok (.ldVK (xField w))
  | 0x15 => .ok (.ldDtV (xField w))
  | 0x18 => .ok (.ldStV (xField w))
  | 0x1E => .ok (.addIV (xField w))
  | 0x29 => .ok (.ldFV (xField w))
  | 0x33 => .ok (.ldBV (xField w))
  | 0x55 => .ok (.ldMemV (xField w))
  | 0x65 => .ok (.ldVMem (xField w))
  | _ => .error (.unknownOpcode w)

/-- `decode : u16 -> Instr + Unknown` (R103). The last arm stands for no value: a nibble is below 16. -/
def decode (w : Word) : Except DecodeError Instr :=
  match (famField w).toNat with
  | 0x0 => .ok (decodeFamily0 w)
  | 0x1 => .ok (.jp (nnnField w))
  | 0x2 => .ok (.call (nnnField w))
  | 0x3 => .ok (.seImm (xField w) (kkField w))
  | 0x4 => .ok (.sneImm (xField w) (kkField w))
  | 0x5 => if nField w = 0x0#4 then .ok (.seReg (xField w) (yField w)) else .error (.unknownOpcode w)
  | 0x6 => .ok (.ldImm (xField w) (kkField w))
  | 0x7 => .ok (.addImm (xField w) (kkField w))
  | 0x8 => decodeFamily8 w
  | 0x9 => if nField w = 0x0#4 then .ok (.sneReg (xField w) (yField w)) else .error (.unknownOpcode w)
  | 0xA => .ok (.ldI (nnnField w))
  | 0xB => .ok (.jpV0 (nnnField w))
  | 0xC => .ok (.rnd (xField w) (kkField w))
  | 0xD => .ok (.drw (xField w) (yField w) (nField w))
  | 0xE => decodeFamilyE w
  | 0xF => decodeFamilyF w
  | _ => .error (.unknownOpcode w)

/-- Two bytes as a word, the first the high byte: `(high << 8) | low` (20_memory.md R75). -/
def wordOfBytes (hi lo : Byte) : Word := hi ++ lo

/-- The two bytes of a word in the order memory holds them (R75). -/
def bytesOfWord (w : Word) : List Byte := [w.extractLsb' 8 8, w.extractLsb' 0 8]

/-- Decoding from bytes: the instruction and the bytes after its word (R100: always 2 bytes). -/
def decodeBytes : List Byte → Except DecodeError (Instr × List Byte)
  | hi :: lo :: rest =>
    match decode (wordOfBytes hi lo) with
    | .ok ins => .ok (ins, rest)
    | .error e => .error e
  | _ => .error .truncated

/-! ### The encoder -/

/-- `f`, `nnn`. -/
def wordNnn (f : Nibble) (nnn : Addr12) : Word := f ++ nnn

/-- `f`, `x`, `kk`. -/
def wordXkk (f x : Nibble) (kk : Byte) : Word := f ++ (x ++ kk : BitVec 12)

/-- `f`, `x`, `y`, `n`. -/
def wordXyn (f x y n : Nibble) : Word := f ++ (x ++ (y ++ n : BitVec 8) : BitVec 12)

/-- The word of an instruction: the pattern of its row of the opcode table (R104). -/
def encode : Instr → Word
  | .cls => 0x00E0#16
  | .ret => 0x00EE#16
  | .sys nnn => wordNnn 0x0 nnn
  | .jp nnn => wordNnn 0x1 nnn
  | .call nnn => wordNnn 0x2 nnn
  | .seImm x kk => wordXkk 0x3 x kk
  | .sneImm x kk => wordXkk 0x4 x kk
  | .seReg x y => wordXyn 0x5 x y 0x0
  | .ldImm x kk => wordXkk 0x6 x kk
  | .addImm x kk => wordXkk 0x7 x kk
  | .ldReg x y => wordXyn 0x8 x y 0x0
  | .orReg x y => wordXyn 0x8 x y 0x1
  | .andReg x y => wordXyn 0x8 x y 0x2
  | .xorReg x y => wordXyn 0x8 x y 0x3
  | .addReg x y => wordXyn 0x8 x y 0x4
  | .sub x y => wordXyn 0x8 x y 0x5
  | .shr x y => wordXyn 0x8 x y 0x6
  | .subn x y => wordXyn 0x8 x y 0x7
  | .shl x y => wordXyn 0x8 x y 0xE
  | .sneReg x y => wordXyn 0x9 x y 0x0
  | .ldI nnn => wordNnn 0xA nnn
  | .jpV0 nnn => wordNnn 0xB nnn
  | .rnd x kk => wordXkk 0xC x kk
  | .drw x y n => wordXyn 0xD x y n
  | .skp x => wordXkk 0xE x 0x9E
  | .sknp x => wordXkk 0xE x 0xA1
  | .ldVDt x => wordXkk 0xF x 0x07
  | .ldVK x => wordXkk 0xF x 0x0A
  | .ldDtV x => wordXkk 0xF x 0x15
  | .ldStV x => wordXkk 0xF x 0x18
  | .addIV x => wordXkk 0xF x 0x1E
  | .ldFV x => wordXkk 0xF x 0x29
  | .ldBV x => wordXkk 0xF x 0x33
  | .ldMemV x => wordXkk 0xF x 0x55
  | .ldVMem x => wordXkk 0xF x 0x65

/-- The two bytes of an instruction as memory holds them. -/
def encodeBytes (ins : Instr) : List Byte := bytesOfWord (encode ins)

/-! ### The opcode table (R104) -/

/-- One row: it selects the words `w` with `w AND mask == pattern` (R104). -/
structure OpcodeRow where
  mnemonic : String
  mask : Word
  pattern : Word
deriving DecidableEq, Repr

/-- The row selects the word (R104). -/
def OpcodeRow.selects (row : OpcodeRow) (w : Word) : Bool := w &&& row.mask == row.pattern

/-- The row of each instruction, with the mnemonic of spec/opcode_table.json. -/
def rowOf : Instr → OpcodeRow
  | .cls => ⟨"CLS", 0xFFFF, 0x00E0⟩
  | .ret => ⟨"RET", 0xFFFF, 0x00EE⟩
  | .sys _ => ⟨"SYS_nnn", 0xF000, 0x0000⟩
  | .jp _ => ⟨"JP_nnn", 0xF000, 0x1000⟩
  | .call _ => ⟨"CALL_nnn", 0xF000, 0x2000⟩
  | .seImm _ _ => ⟨"SE_Vx__kk", 0xF000, 0x3000⟩
  | .sneImm _ _ => ⟨"SNE_Vx__kk", 0xF000, 0x4000⟩
  | .seReg _ _ => ⟨"SE_Vx__Vy", 0xF00F, 0x5000⟩
  | .ldImm _ _ => ⟨"LD_Vx__kk", 0xF000, 0x6000⟩
  | .addImm _ _ => ⟨"ADD_Vx__kk", 0xF000, 0x7000⟩
  | .ldReg _ _ => ⟨"LD_Vx__Vy", 0xF00F, 0x8000⟩
  | .orReg _ _ => ⟨"OR_Vx__Vy", 0xF00F, 0x8001⟩
  | .andReg _ _ => ⟨"AND_Vx__Vy", 0xF00F, 0x8002⟩
  | .xorReg _ _ => ⟨"XOR_Vx__Vy", 0xF00F, 0x8003⟩
  | .addReg _ _ => ⟨"ADD_Vx__Vy", 0xF00F, 0x8004⟩
  | .sub _ _ => ⟨"SUB_Vx__Vy", 0xF00F, 0x8005⟩
  | .shr _ _ => ⟨"SHR_Vx__Vy", 0xF00F, 0x8006⟩
  | .subn _ _ => ⟨"SUBN_Vx__Vy", 0xF00F, 0x8007⟩
  | .shl _ _ => ⟨"SHL_Vx__Vy", 0xF00F, 0x800E⟩
  | .sneReg _ _ => ⟨"SNE_Vx__Vy", 0xF00F, 0x9000⟩
  | .ldI _ => ⟨"LD_I__nnn", 0xF000, 0xA000⟩
  | .jpV0 _ => ⟨"JP_V0__nnn", 0xF000, 0xB000⟩
  | .rnd _ _ => ⟨"RND_Vx__kk", 0xF000, 0xC000⟩
  | .drw _ _ _ => ⟨"DRW_Vx__Vy__n", 0xF000, 0xD000⟩
  | .skp _ => ⟨"SKP_Vx", 0xF0FF, 0xE09E⟩
  | .sknp _ => ⟨"SKNP_Vx", 0xF0FF, 0xE0A1⟩
  | .ldVDt _ => ⟨"LD_Vx__DT", 0xF0FF, 0xF007⟩
  | .ldVK _ => ⟨"LD_Vx__K", 0xF0FF, 0xF00A⟩
  | .ldDtV _ => ⟨"LD_DT__Vx", 0xF0FF, 0xF015⟩
  | .ldStV _ => ⟨"LD_ST__Vx", 0xF0FF, 0xF018⟩
  | .addIV _ => ⟨"ADD_I__Vx", 0xF0FF, 0xF01E⟩
  | .ldFV _ => ⟨"LD_F__Vx", 0xF0FF, 0xF029⟩
  | .ldBV _ => ⟨"LD_B__Vx", 0xF0FF, 0xF033⟩
  | .ldMemV _ => ⟨"LD__I___Vx", 0xF0FF, 0xF055⟩
  | .ldVMem _ => ⟨"LD_Vx___I", 0xF0FF, 0xF065⟩

/-- One instruction of each row, in the order of the table, with all free fields 0. -/
def oneOfEachRow : List Instr :=
  [.cls, .ret, .sys 0, .jp 0, .call 0, .seImm 0 0, .sneImm 0 0, .seReg 0 0, .ldImm 0 0, .addImm 0 0,
   .ldReg 0 0, .orReg 0 0, .andReg 0 0, .xorReg 0 0, .addReg 0 0, .sub 0 0, .shr 0 0, .subn 0 0, .shl 0 0,
   .sneReg 0 0] ++
  [.ldI 0, .jpV0 0, .rnd 0 0, .drw 0 0 0, .skp 0, .sknp 0, .ldVDt 0, .ldVK 0, .ldDtV 0, .ldStV 0, .addIV 0,
   .ldFV 0, .ldBV 0, .ldMemV 0, .ldVMem 0]

/-- The opcode table of R104, in the spec's order; the more specific rows of family 0 come first. -/
def opcodeTable : List OpcodeRow := oneOfEachRow.map rowOf

/-! ### The host's view of the decoder -/

/-- The instruction the decoder reads from a word whose low `nbits` bits are `w` and whose other bits are 0, laid out
in memory order. -/
def decodeTableWord (nbits w : Nat) : Option Instr :=
  match decodeBytes (bytesOfWord (BitVec.ofNat 16 (w % 2 ^ nbits))) with
  | .ok (ins, _) => some ins
  | .error _ => none

end Sys2Proof
end

