-- ==== Sys2Proof/Config.lean ====
section
/-! DEFINITION. The sizes and addresses the spec fixes (00_scope.md R7) and the two values it leaves open (R8):
the glyph bytes and the random bytes. -/

namespace Sys2Proof

/-- `MEM_SIZE` (R7): addresses 0x000 to 0xFFF. -/
def Config.memSize : Nat := 0x1000

/-- `GLYPH_BASE` (R7, 20_memory.md R71). -/
def Config.glyphBase : Nat := 0x050

/-- The size of the glyph table: 16 glyphs of 5 bytes (R7, R73). -/
def Config.glyphSize : Nat := 80

/-- `LOAD_BASE`, and `PC` at reset (R7, R40, R353). -/
def Config.loadBase : Nat := 0x200

/-- `MAX_ROM` = 4096 - 0x200 (R7, R353). -/
def Config.maxRom : Nat := 3584

/-- `GLYPHS`, the 80 glyph bytes: an OPEN parameter of the spec (R8, R73, 92_eei_decisions.md D18), so a constant with
no body. A statement that mentions it holds for every glyph table. See log entry 3. -/
opaque Config.glyphs : Vector Byte 80

/-- The random byte of the `k`-th `Cxkk` of a run: a draw, under no law (R16, 92_eei_decisions.md D17), so a function
with no body. A statement that mentions it holds for every sequence of draws. See log entry 2. -/
opaque Config.drawByte : Nat → Byte

/-- The default of `GLYPHS` that 92_eei_decisions.md D18 lists `[from general knowledge, not in source]`, digits 0 to 7.
No definition of the machine reads it (N24: not to be assumed). PRESUMED, see log entry 3. -/
def Config.defaultGlyphsLow : List Byte :=
  [0xF0, 0x90, 0x90, 0x90, 0xF0,  0x20, 0x60, 0x20, 0x20, 0x70,
   0xF0, 0x10, 0xF0, 0x80, 0xF0,  0xF0, 0x10, 0xF0, 0x10, 0xF0,
   0x90, 0x90, 0xF0, 0x10, 0x10,  0xF0, 0x80, 0xF0, 0x10, 0xF0,
   0xF0, 0x80, 0xF0, 0x90, 0xF0,  0xF0, 0x10, 0x20, 0x40, 0x40]

/-- The default of `GLYPHS` (D18), digits 8 to F. PRESUMED, see log entry 3. -/
def Config.defaultGlyphsHigh : List Byte :=
  [0xF0, 0x90, 0xF0, 0x90, 0xF0,  0xF0, 0x90, 0xF0, 0x10, 0xF0,
   0xF0, 0x90, 0xF0, 0x90, 0x90,  0xE0, 0x90, 0xE0, 0x90, 0xE0,
   0xF0, 0x80, 0x80, 0x80, 0xF0,  0xE0, 0x90, 0x90, 0x90, 0xE0,
   0xF0, 0x80, 0xF0, 0x80, 0xF0,  0xF0, 0x80, 0xF0, 0x80, 0x80]

/-- The whole default glyph table of D18. -/
def Config.defaultGlyphs : List Byte := Config.defaultGlyphsLow ++ Config.defaultGlyphsHigh

end Sys2Proof
end

