-- ==== Sys2Proof/Machine/State.lean ====
section
/-! DEFINITION. The state of the block (10_state.md R30), the faults (60_exceptions.md R301 to R307), the refusals of
the model, and the state after reset (R63). -/

namespace Sys2Proof.Machine

/-- The five faults of R305. None of them ends a step as `Host.Outcome.fault`: the spec says what the machine does
when one is raised (R135, R306: record it in `fault` and halt), so a raising cycle answers a next state whose `fault`
field holds the record. See log entry 1. -/
inductive Fault where
  /-- Code 1. Raised by the cycle at decode, of an illegal word (R301). Safe: the spec halts there too. -/
  | unknownOpcode
  /-- Code 2. Raised by `2nnn` with `SP = 16` (R302). Safe: the spec halts there too. -/
  | stackOverflow
  /-- Code 3. Raised by `00EE` with `SP = 0` (R303). Safe: the spec halts there too. -/
  | stackUnderflow
  /-- Code 4. Raised by the fetch, `Dxyn`, `Fx33`, `Fx55` and `Fx65` past 0xFFF (R304). Safe: the spec halts there
  too. -/
  | memoryBounds
  /-- Code 5. Raised by `Ex9E` and `ExA1` with `V[x] > 15` (R307). Safe: the spec halts there too. -/
  | keyIndex
deriving DecidableEq, Repr

/-- Why the model gives an action no meaning. No step answers one. -/
inductive Refusal where
  /-- Raised by an arm of `exec` whose instruction has no meaning yet; no arm is such. Safe: it stops. -/
  | notModelled (mnemonic : String)
  /-- Raised by the host interface for an operation before the first reset (70_reset_and_hazards.md R357, U18). Safe:
  the spec refuses it too. -/
  | beforeReset
  /-- Raised by the host interface for a `load` that is not directly after a reset (R354, U16). Safe: the spec
  refuses it too. -/
  | loadOutOfPhase
deriving DecidableEq, Repr

/-- The access kinds of a `MemoryBoundsFault` (R305). -/
inductive AccessKind where
  | fetch
  | read
  | write
deriving DecidableEq, Repr

/-- The fault record of R305. -/
structure FaultRecord where
  /-- Which fault; its number is `Fault.code`. -/
  code : Fault
  /-- The address of the instruction (or fetch) that faulted. -/
  pc : Word
  /-- The instruction word; none for a fetch fault. -/
  word : Option Word
  /-- `MemoryBoundsFault` only. -/
  kind : Option AccessKind
  /-- `MemoryBoundsFault` only: the lowest offending address. -/
  addr : Option Nat
  /-- `KeyIndexFault` only: the offending `V[x]`. -/
  key : Option Byte
deriving DecidableEq, Repr

/-- Memory: the bytes that differ from what reset leaves, by rising address. `Memory.read`, `Memory.write` and
`Memory.wf` are in Machine/Ops.lean. -/
abbrev Memory := List Host.Cell

/-- The pixel buffer: `gfx[c][r]`, column first (R54). -/
abbrev Pixels := Vector (Vector Bool 32) 64

/-- The block's state: R30's record, and the model's own counter of the draws taken. -/
structure State where
  /-- `mem`, addresses 0x000 to 0xFFF (R70). -/
  mem : Memory
  /-- `V[0]` to `V[15]`; `V[15]` is `VF` (R32, R35). -/
  v : Vector Byte 16
  /-- `I` (R42). -/
  i : Word
  /-- `PC` (R39). -/
  pc : Word
  /-- The call stack (R44). -/
  stack : Vector Word 16
  /-- `SP`, the next free slot, 0 to 16 (R45). -/
  sp : Fin 17
  /-- `DT`, the delay timer (R48). -/
  dt : Byte
  /-- `ST`, the sound timer (R49). -/
  st : Byte
  /-- `keys`, written by the host only (R52). -/
  keys : Vector Bool 16
  /-- `gfx` (R54). -/
  gfx : Pixels
  /-- The draw flag (R57). -/
  draw : Bool
  /-- The fault status (R59). -/
  fault : Option FaultRecord
  /-- THE MODEL'S OWN, no state of the spec: how many random bytes `Cxkk` has taken, which picks the next free
  value `Config.drawByte draws`. See log entry 2. -/
  draws : Nat
deriving DecidableEq, Repr

/-- The state after reset (R63, R350). Memory lists nothing: an unlisted address reads what reset leaves there. `draws`
starts at 0: DESIGN CHOICE, log entry 2. -/
def State.reset : State where
  mem := []
  v := Vector.replicate 16 0
  i := 0
  pc := 0x200
  stack := Vector.replicate 16 0
  sp := 0
  dt := 0
  st := 0
  keys := Vector.replicate 16 false
  gfx := Vector.replicate 64 (Vector.replicate 32 false)
  draw := false
  fault := none
  draws := 0

end Sys2Proof.Machine
end

