-- ==== Sys2Proof/Machine/Ops.lean ====
section
/-! DEFINITION. The named operations on memory and registers, raising a fault, and the fixed parts of a cycle. -/

namespace Sys2Proof.Machine

/-- How a meaning answers: always a next state (log entry 1). -/
abbrev Result := Host.Outcome State Fault Refusal

/-! ### Memory (20_memory.md) -/

/-- What an address reads as that memory does not list: what reset leaves there (R63, R73): the glyph bytes at 0x050
to 0x09F, 0 elsewhere. -/
def Memory.resetByte (a : Nat) : Byte :=
  if h : Config.glyphBase ≤ a ∧ a - Config.glyphBase < 80 then Config.glyphs[a - Config.glyphBase]'h.2 else 0

/-- `MemRead(a, 1)` for `a <= 0xFFF` (00_scope.md R13). Every access is checked against 0xFFF before it is made. -/
def Memory.read : Memory → Nat → Byte
  | [], a => Memory.resetByte a
  | (b, w) :: rest, a => if a = b then w else Memory.read rest a

/-- Puts a cell into a rising list; the value an unlisted address reads as is not listed. -/
def Memory.insert : Memory → Nat → Byte → Memory
  | [], a, x => if x = Memory.resetByte a then [] else [(a, x)]
  | (b, w) :: rest, a, x =>
    if a < b then (if x = Memory.resetByte a then (b, w) :: rest else (a, x) :: (b, w) :: rest)
    else if a = b then (if x = Memory.resetByte a then rest else (a, x) :: rest)
    else (b, w) :: Memory.insert rest a x

/-- `MemWrite(a, 1, x)` (R13): sets the byte if `a <= 0xFFF`. -/
def Memory.write (m : Memory) (a : Nat) (x : Byte) : Memory :=
  if a < Config.memSize then Memory.insert m a x else m

/-- `bs` at consecutive addresses from `a`. -/
def Memory.writeBytes : Memory → Nat → List Byte → Memory
  | m, _, [] => m
  | m, a, b :: bs => Memory.writeBytes (Memory.write m a b) (a + 1) bs

/-- The list rises from `lo` on, stays in the address space and lists no byte an unlisted address reads as. -/
def Memory.risesFrom : Nat → Memory → Bool
  | _, [] => true
  | lo, (a, x) :: rest =>
    decide (lo ≤ a) && decide (a < Config.memSize) && decide (x ≠ Memory.resetByte a) && Memory.risesFrom (a + 1) rest

/-- The canonical form of memory: equal memories are equal lists. -/
def Memory.wf (m : Memory) : Bool := Memory.risesFrom 0 m

/-- The byte of the state's memory at `a`. -/
def readByte (s : State) (a : Nat) : Byte := Memory.read s.mem a

/-! ### Registers, stack, pixels -/

/-- `V[x]` (R11, R32). -/
def readV (s : State) (x : Nibble) : Byte := s.v[x.toNat]'x.isLt

/-- `V[x] <- b` (R11, R32). -/
def writeV (s : State) (x : Nibble) (b : Byte) : State := { s with v := s.v.set x.toNat b x.isLt }

/-- `VF <- b`: `VF` is `V[15]` (R35). -/
def setVF (s : State) (b : Byte) : State := writeV s 0xF#4 b

/-- `I <- a` (R42). -/
def setI (s : State) (a : Word) : State := { s with i := a }

/-- `DT <- b` (R48). -/
def setDT (s : State) (b : Byte) : State := { s with dt := b }

/-- `ST <- b` (R49). -/
def setST (s : State) (b : Byte) : State := { s with st := b }

/-- `PC <- PC + 2`, modulo 65536 (40_cycle.md R136, 10_state.md R41). -/
def advance (s : State) : State := { s with pc := s.pc + 2 }

/-- `if c then PC <- PC + 4 else PC <- PC + 2` (R136). -/
def skipIf (c : Bool) (s : State) : State := { s with pc := if c then s.pc + 4 else s.pc + 2 }

/-- `PC <- target` (R136). -/
def jump (s : State) (target : Word) : State := { s with pc := target }

/-- `stack[SP] <- a; SP <- SP + 1` below 16 (R45). -/
def push (s : State) (a : Word) (h : s.sp.val < 16) : State :=
  { s with stack := s.stack.set s.sp.val a h, sp := ⟨s.sp.val + 1, by omega⟩ }

/-- `SP <- SP - 1` above 0 (R45); the slot keeps its value (R46). -/
def pop (s : State) : State := { s with sp := ⟨s.sp.val - 1, by omega⟩ }

/-- `stack[SP]` below 16. -/
def stackTop (s : State) (h : s.sp.val < 16) : Word := s.stack[s.sp.val]'h

/-- The cell at column `c`, row `r` of a pixel buffer. -/
def pixelOf (g : Pixels) (c : Fin 64) (r : Fin 32) : Bool := (g[c.val]'c.isLt)[r.val]'r.isLt

/-- `gfx[c][r]` (R54). -/
def pixel (s : State) (c : Fin 64) (r : Fin 32) : Bool := pixelOf s.gfx c r

/-- The all-off buffer (R56, 41_family_0_1_2.md R150). -/
def blankPixels : Pixels := Vector.replicate 64 (Vector.replicate 32 false)

/-- `gfx[c][r] <- b`. -/
def setPixel (g : Pixels) (c : Fin 64) (r : Fin 32) (b : Bool) : Pixels :=
  g.set c.val ((g[c.val]'c.isLt).set r.val b r.isLt) c.isLt

/-! ### Faults (60_exceptions.md)

The block has no trap entry beyond recording the fault, and no return from one (R300, R312): only `State.reset` clears
`fault` (R306). -/

/-- The number of a fault (R305). -/
def faultCode : Fault → Byte
  | .unknownOpcode => 1
  | .stackOverflow => 2
  | .stackUnderflow => 3
  | .memoryBounds => 4
  | .keyIndex => 5

/-- `raise F(info)` (00_scope.md R14, 40_cycle.md R135): the record goes into `fault` and nothing else changes. -/
def raise (s : State) (record : FaultRecord) : State := { s with fault := some record }

/-- The record of a fault that has no field of its own: `pc` and `word` (R301, R302, R303). -/
def plainRecord (code : Fault) (pc word : Word) : FaultRecord :=
  { code := code, pc := pc, word := some word, kind := none, addr := none, key := none }

/-- The record of a `MemoryBoundsFault` (R304); `addr` is the lowest accessed address above 0xFFF (R267). -/
def boundsRecord (pc : Word) (word : Option Word) (kind : AccessKind) (base : Nat) : FaultRecord :=
  { code := .memoryBounds, pc := pc, word := word, kind := some kind, addr := some (max base Config.memSize),
    key := none }

/-- The record of a `KeyIndexFault` (R307). -/
def keyRecord (pc word : Word) (key : Byte) : FaultRecord :=
  { code := .keyIndex, pc := pc, word := some word, kind := none, addr := none, key := some key }

/-- Some byte of the `len` bytes from `base` lies above 0xFFF, at exact addresses (R76, R236, R267). -/
def beyondMemory (base len : Nat) : Bool := decide (0 < len ∧ Config.memSize ≤ base + len - 1)

/-- An instruction that accesses `len` bytes from `I`: the bounds check, before anything else, and then the state it
leaves (R76, R267). -/
def accessing (s : State) (word : Word) (kind : AccessKind) (len : Nat) (after : State) : Result :=
  if beyondMemory s.i.toNat len then .next (raise s (boundsRecord s.pc (some word) kind s.i.toNat)) else .next after

/-! ### The fixed parts of a cycle (40_cycle.md) -/

/-- Step 1: `draw <- false` (R131). -/
def clearDraw (s : State) : State := { s with draw := false }

/-- Step 2, `Fetch(PC)`: two bytes, high byte first (R132), or the record of the fault. -/
def fetch (s : State) : Except FaultRecord Word :=
  if Config.memSize ≤ s.pc.toNat + 1 then .error (boundsRecord s.pc none .fetch s.pc.toNat)
  else .ok (wordOfBytes (readByte s s.pc.toNat) (readByte s (s.pc.toNat + 1)))

/-- `if t > 0 then t - 1` (R137). -/
def decrement (t : Byte) : Byte := if t = 0 then 0 else t - 1

/-- Step 5: both timers (R137). -/
def tickTimers (s : State) : State := { s with dt := decrement s.dt, st := decrement s.st }

/-- The end of a cycle: step 5, which a fault leaves out (R135, R137). -/
def endCycle : Result → Result
  | .next s => .next (if s.fault.isSome then s else tickTimers s)
  | .fault r => .fault r
  | .refused r => .refused r

end Sys2Proof.Machine
end

