-- ==== Sys2Proof/Machine/Operands.lean ====
section
/-! DEFINITION. The operand forms (30_encoding.md R102) and the values instructions compute from them. -/

namespace Sys2Proof.Machine

/-- `zext_16(nnn)` (R102). -/
def target (nnn : Addr12) : Word := nnn.setWidth 16

/-- `zext_16` of a byte (R10). -/
def wide (b : Byte) : Word := b.setWidth 16

/-- The target of `Bnnn`: `nnn + V[0]` modulo 65536, whatever `x` is (44_family_9_to_C.md R212). -/
def offsetTarget (s : State) (nnn : Addr12) : Word := target nnn + wide (readV s 0#4)

/-- The glyph address of `Fx29`: `0x050 + 5 * V[x]`, unmasked (47_family_F.md R265). -/
def glyphAddress (b : Byte) : Word := BitVec.ofNat 16 (Config.glyphBase + 5 * b.toNat)

/-- The registers `V[0]` to `V[x]`, in order (R268, R269). -/
def regsUpTo (x : Nibble) : List (Fin 16) := (List.finRange 16).filter (fun k => decide (k.val ≤ x.toNat))

/-- `for i in 0 .. x: MemWrite(I + i, 1, V[i])` (R268). -/
def storeRegs (m : Memory) (base : Nat) (v : Vector Byte 16) (x : Nibble) : Memory :=
  (regsUpTo x).foldl (fun m k => Memory.write m (base + k.val) (v[k.val]'k.isLt)) m

/-- `for i in 0 .. x: V[i] <- MemRead(I + i, 1)` (R269). -/
def loadRegs (m : Memory) (base : Nat) (v : Vector Byte 16) (x : Nibble) : Vector Byte 16 :=
  (regsUpTo x).foldl (fun v k => v.set k.val (Memory.read m (base + k.val)) k.isLt) v

/-- The three decimal digits of `Fx33`: hundreds, tens, ones (R266). -/
def bcdDigits (b : Byte) : List Byte :=
  [BitVec.ofNat 8 (b.toNat / 100), BitVec.ofNat 8 (b.toNat / 10 % 10), BitVec.ofNat 8 (b.toNat % 10)]

/-- The lowest pressed key (R261). -/
def firstKey (keys : Vector Bool 16) : Option (Fin 16) := (List.finRange 16).find? (fun k => keys[k.val]'k.isLt)

/-! ### Sprites (45_family_D_draw.md) -/

/-- `V[x] mod 64` (R232). -/
def originColumn (s : State) (x : Nibble) : Nat := (readV s x).toNat % 64

/-- `V[y] mod 32` (R232). -/
def originRow (s : State) (y : Nibble) : Nat := (readV s y).toNat % 32

/-- One set sprite bit at column `px`, row `py`: a toggle inside the buffer, with the collision flag; nothing outside
(R230, R231, R234). -/
def plotBit (acc : Pixels × Bool) (px py : Nat) : Pixels × Bool :=
  if h : px < 64 ∧ py < 32 then
    let on := pixelOf acc.1 ⟨px, h.1⟩ ⟨py, h.2⟩
    (setPixel acc.1 ⟨px, h.1⟩ ⟨py, h.2⟩ (!on), acc.2 || on)
  else acc

/-- One row: `for c in 0 .. 7`, bit `7 - c` of the byte at column `ox + c` (R230, R233). -/
def plotRow (acc : Pixels × Bool) (ox py : Nat) (b : Byte) : Pixels × Bool :=
  (List.range 8).foldl (fun acc c => if b.getLsbD (7 - c) then plotBit acc (ox + c) py else acc) acc

/-- The sprite: `for r in 0 .. n-1`, the byte at `I + r` on row `oy + r` (R230). -/
def plotSprite (m : Memory) (base ox oy n : Nat) (g : Pixels) : Pixels × Bool :=
  (List.range n).foldl (fun acc r => plotRow acc ox (oy + r) (Memory.read m (base + r))) (g, false)

end Sys2Proof.Machine
end

