-- ==== Sys2Proof/Machine/Flags.lean ====
section
/-! DEFINITION. The values of `VF` (10_state.md R35), each 0 or 1. -/

namespace Sys2Proof.Machine

/-- A condition as a flag value. -/
def flag (c : Bool) : Byte := if c then 1 else 0

/-- `8xy4`: 1 if the exact sum exceeds 255 (43_family_8.md R194). -/
def carryFlag (a b : Byte) : Byte := flag (decide (255 < a.toNat + b.toNat))

/-- `8xy5` and `8xy7`: 1 if `a > b`, strictly (R195, R197). -/
def greaterFlag (a b : Byte) : Byte := flag (decide (b.toNat < a.toNat))

/-- `8xy6`: bit 0 before the shift (R196). -/
def lowBitFlag (a : Byte) : Byte := a &&& 0x01

/-- `8xyE`: bit 7 before the shift (R198). -/
def highBitFlag (a : Byte) : Byte := (a >>> 7) &&& 0x01

end Sys2Proof.Machine
end

