-- ==== Sys2Proof/Machine/FamilyControl.lean ====
section
/-! DEFINITION. Families 0, 1 and 2 (41_family_0_1_2.md): clear, return, no-op, jump, call. The word a fault records is
the instruction's own encoding. -/

namespace Sys2Proof.Machine

/-- `00E0` (R150): every pixel off, `draw` set. -/
def execCls (s : State) : Result :=
  .next (advance { s with gfx := blankPixels, draw := true })

/-- `00EE` (R151): `SP <- SP - 1`, then `PC <- stack[SP] + 2`; the fault of R303 when `SP = 0`. -/
def execRet (s : State) : Result :=
  if h : s.sp.val = 0 then .next (raise s (plainRecord .stackUnderflow s.pc (encode .ret)))
  else .next (jump (pop s) (stackTop (pop s) (by simp only [pop]; omega) + 2))

/-- `0nnn` (R152, R107): a no-op. -/
def execSys (_nnn : Addr12) (s : State) : Result := .next (advance s)

/-- `1nnn` (R153). -/
def execJp (nnn : Addr12) (s : State) : Result := .next (jump s (target nnn))

/-- `2nnn` (R154): pushes its own address; the fault of R302 when `SP = 16`. -/
def execCall (nnn : Addr12) (s : State) : Result :=
  if h : s.sp.val < 16 then .next (jump (push s s.pc h) (target nnn))
  else .next (raise s (plainRecord .stackOverflow s.pc (encode (.call nnn))))

end Sys2Proof.Machine
end

