-- ==== Sys2Proof/Machine/FamilyDraw.lean ====
section
/-! DEFINITION. Family D (45_family_D_draw.md): the sprite draw. -/

namespace Sys2Proof.Machine

/-- The state after a `Dxyn` that passes its bounds check (R230): the origin is read before `VF` changes (R232), `VF`
is the collision flag (R231), `draw` is set (R237). -/
def drawSprite (x y n : Nibble) (s : State) : State :=
  let drawn := plotSprite s.mem s.i.toNat (originColumn s x) (originRow s y) n.toNat s.gfx
  advance (setVF { s with gfx := drawn.1, draw := true } (flag drawn.2))

/-- `Dxyn` (R230, R236): reads `n` bytes at `I`; with `n = 0` it accesses none (R235). -/
def execDrw (x y n : Nibble) (s : State) : Result :=
  accessing s (encode (.drw x y n)) .read n.toNat (drawSprite x y n s)

end Sys2Proof.Machine
end

