-- ==== Sys2Proof/Machine/FamilyEight.lean ====
section
/-! DEFINITION. Family 8 (43_family_8.md). The statements run in the spec's order and each reads what the earlier ones
left (00_scope.md R12), so an operand that is `VF` is read after the flag write where the rule reads it there. -/

namespace Sys2Proof.Machine

/-- `8xy0` (R190). -/
def execLdReg (x y : Nibble) (s : State) : Result := .next (advance (writeV s x (readV s y)))

/-- `8xy1` (R191). -/
def execOrReg (x y : Nibble) (s : State) : Result := .next (advance (writeV s x (readV s x ||| readV s y)))

/-- `8xy2` (R192). -/
def execAndReg (x y : Nibble) (s : State) : Result := .next (advance (writeV s x (readV s x &&& readV s y)))

/-- `8xy3` (R193). -/
def execXorReg (x y : Nibble) (s : State) : Result := .next (advance (writeV s x (readV s x ^^^ readV s y)))

/-- `8xy4` (R194): the sum is taken before `VF` is written. -/
def execAddReg (x y : Nibble) (s : State) : Result :=
  .next (advance (writeV (setVF s (carryFlag (readV s x) (readV s y))) x (readV s x + readV s y)))

/-- `8xy5` (R195): the operands of the difference are read after the `VF` write. -/
def execSub (x y : Nibble) (s : State) : Result :=
  let flagged := setVF s (greaterFlag (readV s x) (readV s y))
  .next (advance (writeV flagged x (readV flagged x - readV flagged y)))

/-- `8xy6` (R196): `y` is ignored; the shifted register is read after the `VF` write. -/
def execShr (x _y : Nibble) (s : State) : Result :=
  let flagged := setVF s (lowBitFlag (readV s x))
  .next (advance (writeV flagged x (readV flagged x >>> 1)))

/-- `8xy7` (R197): the operands of the difference are read after the `VF` write. -/
def execSubn (x y : Nibble) (s : State) : Result :=
  let flagged := setVF s (greaterFlag (readV s y) (readV s x))
  .next (advance (writeV flagged x (readV flagged y - readV flagged x)))

/-- `8xyE` (R198): `y` is ignored; the shifted register is read after the `VF` write. -/
def execShl (x _y : Nibble) (s : State) : Result :=
  let flagged := setVF s (highBitFlag (readV s x))
  .next (advance (writeV flagged x (readV flagged x <<< 1)))

end Sys2Proof.Machine
end

