-- ==== Sys2Proof/Machine/FamilyIndexRandom.lean ====
section
/-! DEFINITION. Families A, B and C (44_family_9_to_C.md): load index, jump with offset, random byte. -/

namespace Sys2Proof.Machine

/-- `Annn` (R211). -/
def execLdI (nnn : Addr12) (s : State) : Result := .next (advance (setI s (target nnn)))

/-- `Bnnn` (R212): always `V[0]`, no further 2. -/
def execJpV0 (nnn : Addr12) (s : State) : Result := .next (jump s (offsetTarget s nnn))

/-- `Cxkk` with the byte `r` drawn (R213); the model counts the draw. -/
def rndWith (r : Byte) (x : Nibble) (kk : Byte) (s : State) : State :=
  advance (writeV { s with draws := s.draws + 1 } x (r &&& kk))

/-- `Cxkk` (R213): the byte is the next free value (00_scope.md R16; log entry 2). -/
def execRnd (x : Nibble) (kk : Byte) (s : State) : Result := .next (rndWith (Config.drawByte s.draws) x kk s)

end Sys2Proof.Machine
end

