-- ==== Sys2Proof/Machine/FamilyKey.lean ====
section
/-! DEFINITION. Family E (46_family_E.md): skips on the key whose index is `V[x]`. -/

namespace Sys2Proof.Machine

/-- The key skip of both instructions: the fault of R307 when `V[x] > 15` (R252), else a skip when the key's state is
`want`. -/
def keySkip (word : Word) (x : Nibble) (want : Bool) (s : State) : Result :=
  if h : (readV s x).toNat < 16 then .next (skipIf (s.keys[(readV s x).toNat]'h == want) s)
  else .next (raise s (keyRecord s.pc word (readV s x)))

/-- `Ex9E` (R250). -/
def execSkp (x : Nibble) (s : State) : Result := keySkip (encode (.skp x)) x true s

/-- `ExA1` (R251). -/
def execSknp (x : Nibble) (s : State) : Result := keySkip (encode (.sknp x)) x false s

end Sys2Proof.Machine
end

