-- ==== Sys2Proof/Machine/FamilyMisc.lean ====
section
/-! DEFINITION. Family F (47_family_F.md): timers, key check, index arithmetic, glyphs, BCD, register block transfer. -/

namespace Sys2Proof.Machine

/-- `Fx07` (R260): `DT` as it is before the cycle's decrement. -/
def execLdVDt (x : Nibble) (s : State) : Result := .next (advance (writeV s x s.dt))

/-- `Fx0A` (R261): the lowest pressed key, or nothing; it never waits. -/
def execLdVK (x : Nibble) (s : State) : Result :=
  match firstKey s.keys with
  | some k => .next (advance (writeV s x (BitVec.ofNat 8 k.val)))
  | none => .next (advance s)

/-- `Fx15` (R262). -/
def execLdDtV (x : Nibble) (s : State) : Result := .next (advance (setDT s (readV s x)))

/-- `Fx18` (R263). -/
def execLdStV (x : Nibble) (s : State) : Result := .next (advance (setST s (readV s x)))

/-- `Fx1E` (R264): modulo 65536, no flag. -/
def execAddIV (x : Nibble) (s : State) : Result := .next (advance (setI s (s.i + wide (readV s x))))

/-- `Fx29` (R265). -/
def execLdFV (x : Nibble) (s : State) : Result := .next (advance (setI s (glyphAddress (readV s x))))

/-- `Fx33` (R266, R267): three bytes at `I`; `I` is unchanged. -/
def execLdBV (x : Nibble) (s : State) : Result :=
  accessing s (encode (.ldBV x)) .write 3
    (advance { s with mem := Memory.writeBytes s.mem s.i.toNat (bcdDigits (readV s x)) })

/-- `Fx55` (R268, R267): `x + 1` bytes at `I`; `I` is unchanged. -/
def execLdMemV (x : Nibble) (s : State) : Result :=
  accessing s (encode (.ldMemV x)) .write (x.toNat + 1)
    (advance { s with mem := storeRegs s.mem s.i.toNat s.v x })

/-- `Fx65` (R269, R267): `x + 1` bytes at `I`; `I` is unchanged. -/
def execLdVMem (x : Nibble) (s : State) : Result :=
  accessing s (encode (.ldVMem x)) .read (x.toNat + 1)
    (advance { s with v := loadRegs s.mem s.i.toNat s.v x })

end Sys2Proof.Machine
end

