-- ==== Sys2Proof/Machine/FamilySkipImmediate.lean ====
section
/-! DEFINITION. Families 3 to 7 and 9 (42_family_3_to_7.md, 44_family_9_to_C.md R210): skips on registers, and the
immediate load and add. -/

namespace Sys2Proof.Machine

/-- `3xkk` (R170). -/
def execSeImm (x : Nibble) (kk : Byte) (s : State) : Result := .next (skipIf (readV s x == kk) s)

/-- `4xkk` (R171). -/
def execSneImm (x : Nibble) (kk : Byte) (s : State) : Result := .next (skipIf (readV s x != kk) s)

/-- `5xy0` (R172). -/
def execSeReg (x y : Nibble) (s : State) : Result := .next (skipIf (readV s x == readV s y) s)

/-- `6xkk` (R173). -/
def execLdImm (x : Nibble) (kk : Byte) (s : State) : Result := .next (advance (writeV s x kk))

/-- `7xkk` (R174): no flag. -/
def execAddImm (x : Nibble) (kk : Byte) (s : State) : Result := .next (advance (writeV s x (readV s x + kk)))

/-- `9xy0` (R210). -/
def execSneReg (x y : Nibble) (s : State) : Result := .next (skipIf (readV s x != readV s y) s)

end Sys2Proof.Machine
end

