-- ==== Sys2Proof/Machine/Step.lean ====
section
/-! DEFINITION. One step: the cycle of 40_cycle.md R138 with its random byte taken from the free values. -/

namespace Sys2Proof.Machine

/-- The cycle (R138): a halted block does nothing (60_exceptions.md R306); else clear `draw`, fetch, decode, execute,
decrement the timers. A fault in any of them ends the cycle (R135), in the order of R309. -/
def step (s : State) : Host.Outcome State Fault Refusal :=
  if s.fault.isSome then .next s
  else
    match fetch (clearDraw s) with
    | .error record => .next (raise (clearDraw s) record)
    | .ok w =>
      match decode w with
      | .error _ => .next (raise (clearDraw s) (plainRecord .unknownOpcode s.pc w))
      | .ok ins => endCycle (exec ins (clearDraw s))

/-- The state with the instruction whose word is `w` (bits above `nbits` 0) at `PC`, in memory order. It needs
`PC <= 0xFFE` and no fault recorded, as at reset. It stands for the host's `load`; see log entry 4. -/
def State.withFetchWord (s : State) (nbits w : Nat) : State :=
  { s with mem := Memory.writeBytes s.mem s.pc.toNat (bytesOfWord (BitVec.ofNat 16 (w % 2 ^ nbits))) }

end Sys2Proof.Machine
end

