-- ==== Sys2Proof/Machine/Interface.lean ====
section
/-! DEFINITION. The block's interface to its host (60_exceptions.md R326): `step(r)` with an explicit random byte,
`reset`, `load`, `set_keys` and the outputs. -/

namespace Sys2Proof.Machine

/-! ### `step(r)` -/

/-- Execute with the random byte `r` (40_cycle.md R138): only `Cxkk` reads it. -/
def execWith (r : Byte) (ins : Instr) (s : State) : Result :=
  match ins with
  | .rnd x kk => .next (rndWith r x kk s)
  | other => exec other s

/-- `Cycle(s, r)` (R138): `step` takes `r` from the free values instead. -/
def cycle (r : Byte) (s : State) : Result :=
  if s.fault.isSome then .next s
  else
    match fetch (clearDraw s) with
    | .error record => .next (raise (clearDraw s) record)
    | .ok w =>
      match decode w with
      | .error _ => .next (raise (clearDraw s) (plainRecord .unknownOpcode s.pc w))
      | .ok ins => endCycle (execWith r ins (clearDraw s))

/-! ### `load(bytes)` (70_reset_and_hazards.md) -/

/-- What `load` is given: a source that cannot be read, or the number of bytes asked for and the bytes read (R355). -/
inductive Rom where
  | unreadable
  | bytes (requested : Nat) (data : List Byte)
deriving DecidableEq, Repr

/-- The Program Loader's failures (60_exceptions.md R310). -/
inductive LoadError where
  | unreadable
  | sizeMismatch
deriving DecidableEq, Repr

/-- The Program Loader (R353, R355): the bytes at 0x200, if all that were asked for are there and they fit. -/
def loadRom (rom : Rom) (s : State) : Except LoadError State :=
  match rom with
  | .unreadable => .error .unreadable
  | .bytes requested data =>
    if data.length = requested ∧ data.length ≤ Config.maxRom then
      .ok { s with mem := Memory.writeBytes s.mem Config.loadBase data }
    else .error .sizeMismatch

/-! ### `set_keys` and the outputs -/

/-- `keys <- k` (R326, 10_state.md R52). -/
def setKeys (keys : Vector Bool 16) (s : State) : State := { s with keys := keys }

/-- What the host reads (R320, R321, R326). -/
structure Outputs where
  /-- The 2048 pixels, index `r*64 + c` for `gfx[c][r]` (R320). -/
  display : Vector Bool 2048
  draw : Bool
  st : Byte
  /-- `ST != 0` (R321). -/
  soundActive : Bool
  fault : Option FaultRecord
deriving DecidableEq, Repr

/-- The pixel at a display index (R320). -/
def displayBit (s : State) (k : Fin 2048) : Bool :=
  pixel s ⟨k.val % 64, Nat.mod_lt _ (by decide)⟩ ⟨k.val / 64, by have := k.isLt; omega⟩

/-- The outputs of a state. -/
def outputs (s : State) : Outputs :=
  { display := Vector.ofFn (displayBit s), draw := s.draw, st := s.st, soundActive := s.st != 0, fault := s.fault }

/-! ### The block and its operations (R326, R327, R357) -/

/-- The block in its boot phase (R357; log entry 5). -/
inductive Block where
  /-- Before the first reset: there is no state (U18). -/
  | unreset
  /-- After a reset, with no `step` and no `load` since (R354). -/
  | fresh (s : State)
  /-- After a `load` or a `step`. -/
  | booted (s : State)
deriving DecidableEq, Repr

/-- The operations of R326. -/
inductive HostOp where
  | reset
  | load (rom : Rom)
  | step (r : Byte)
  | setKeys (keys : Vector Bool 16)
  | readOutputs
deriving DecidableEq, Repr

/-- What the host gets back (R326). -/
inductive Reply where
  | done
  | loadFailed (e : LoadError)
  /-- The outputs and, for inspection, the whole state. -/
  | outputs (o : Outputs) (whole : State)
  | refused (r : Refusal)
  | stopped (f : Fault)
deriving DecidableEq, Repr

/-- A cycle of the block. No cycle answers a host-level fault or refusal (log entry 1); if one did, nothing would
change. -/
def stepBlock (r : Byte) (s : State) (unchanged : Block) : Block × Reply :=
  match cycle r s with
  | .next t => (.booted t, .done)
  | .fault f => (unchanged, .stopped f)
  | .refused e => (unchanged, .refused e)

/-- `load`, admitted only directly after a reset (R354). A failed `load` leaves the state as reset left it (R355) and
is the one `load` of R327 (log entry 5). -/
def loadBlock (rom : Rom) : Block → Block × Reply
  | .unreset => (.unreset, .refused .beforeReset)
  | .booted s => (.booted s, .refused .loadOutOfPhase)
  | .fresh s =>
    match loadRom rom s with
    | .ok t => (.booted t, .done)
    | .error e => (.booted s, .loadFailed e)

/-- One host operation, between cycles (R326, 20_memory.md R86). -/
def hostStep (op : HostOp) (b : Block) : Block × Reply :=
  match op, b with
  | .reset, _ => (.fresh State.reset, .done)
  | .load rom, b => loadBlock rom b
  | .step r, .fresh s => stepBlock r s (.fresh s)
  | .step r, .booted s => stepBlock r s (.booted s)
  | .setKeys keys, .fresh s => (.fresh (setKeys keys s), .done)
  | .setKeys keys, .booted s => (.booted (setKeys keys s), .done)
  | .readOutputs, .fresh s => (.fresh s, .outputs (outputs s) s)
  | .readOutputs, .booted s => (.booted s, .outputs (outputs s) s)
  | _, .unreset => (.unreset, .refused .beforeReset)

end Sys2Proof.Machine
end

