-- ==== Sys2Proof/Safety.lean ====
section
/-! DEFINITION. The terms statements use: the instruction a cycle executes, what a state may not change, the form of a
fault record, and the invariant of the machine. -/

namespace Sys2Proof.Machine

/-- The instruction the next cycle executes: none if the block is halted, or the fetch or the decode faults. -/
def nextInstr (s : State) : Option Instr :=
  if s.fault.isSome then none
  else
    match fetch s with
    | .error _ => none
    | .ok w =>
      match decode w with
      | .error _ => none
      | .ok ins => some ins

/-- The parts of the state, `V` and memory each as one. -/
inductive StatePart where
  | mem | v | i | pc | stack | sp | dt | st | keys | gfx | draw | fault | draws
deriving DecidableEq, Repr

/-- `t` agrees with `s` on every part that is not listed; for memory, on the reading of every byte. -/
def Unchanged (except : List StatePart) (s t : State) : Prop :=
  (StatePart.mem ∉ except → ∀ a, readByte t a = readByte s a) ∧
  (StatePart.v ∉ except → t.v = s.v) ∧
  (StatePart.i ∉ except → t.i = s.i) ∧
  (StatePart.pc ∉ except → t.pc = s.pc) ∧
  (StatePart.stack ∉ except → t.stack = s.stack) ∧
  (StatePart.sp ∉ except → t.sp = s.sp) ∧
  (StatePart.dt ∉ except → t.dt = s.dt) ∧
  (StatePart.st ∉ except → t.st = s.st) ∧
  (StatePart.keys ∉ except → t.keys = s.keys) ∧
  (StatePart.gfx ∉ except → t.gfx = s.gfx) ∧
  (StatePart.draw ∉ except → t.draw = s.draw) ∧
  (StatePart.fault ∉ except → t.fault = s.fault) ∧
  (StatePart.draws ∉ except → t.draws = s.draws)

/-- The sprite of a `Dxyn` executed at `s` has a set bit at column `c`, row `r`: 8 columns from `V[x] mod 64`, `n` rows
from `V[y] mod 32`, bit 7 leftmost, row by row from `I`, offsets not reduced (45_family_D_draw.md R232, R233, R234). -/
def spriteCovers (s : State) (x y n : Nibble) (c : Fin 64) (r : Fin 32) : Bool :=
  decide (originColumn s x ≤ c.val ∧ c.val < originColumn s x + 8) &&
  decide (originRow s y ≤ r.val ∧ r.val < originRow s y + n.toNat) &&
  (readByte s (s.i.toNat + (r.val - originRow s y))).getLsbD (7 - (c.val - originColumn s x))

/-- The form of a fault record (60_exceptions.md R301 to R305, R307): which fields each fault has, that a bounds fault
names an address above 0xFFF, and that a key fault names an index above 15. -/
def faultRecordWf (r : FaultRecord) : Bool :=
  match r.code with
  | .unknownOpcode | .stackOverflow | .stackUnderflow =>
    r.word.isSome && r.kind.isNone && r.addr.isNone && r.key.isNone
  | .memoryBounds =>
    r.kind.isSome && (r.kind == some .fetch) == r.word.isNone && r.addr.any (fun a => decide (0xFFF < a)) && r.key.isNone
  | .keyIndex =>
    r.word.isSome && r.kind.isNone && r.addr.isNone && r.key.any (fun k => decide (15 < k.toNat))

/-- The invariant of the machine: memory is in its canonical form; `PC` stays below 0x10FF (10_state.md R41); every
stack slot holds an address an instruction was fetched from (R44, R154) or its reset value; a recorded fault has the
form of R305. That `SP` is 0 to 16 (R45) is in its type. -/
def MachineInv (s : State) : Prop :=
  Memory.wf s.mem = true ∧
  s.pc.toNat < 0x10FF ∧
  (∀ j : Fin 16, (s.stack[j.val]'j.isLt).toNat ≤ 0xFFE) ∧
  (∀ r, s.fault = some r → faultRecordWf r = true)

/-- The invariant of a block in any boot phase. -/
def BlockInvariant : Block → Prop
  | .unreset => True
  | .fresh s => MachineInv s
  | .booted s => MachineInv s

/-- The answer is the state `s` with the fault recorded, and nothing else changed (00_scope.md R14). -/
def RaisesFrom (s : State) (record : FaultRecord) (answer : Result) : Prop :=
  ∃ t, answer = .next t ∧ t.fault = some record ∧ Unchanged [.fault] s t

/-- The cycle at `s` executes `ins`, without a fault, and leaves `t`. -/
def Completes (s : State) (ins : Instr) (t : State) : Prop :=
  nextInstr s = some ins ∧ step s = .next t ∧ t.fault = none

/-- The PC-advance table of 40_cycle.md R136, for a completed cycle. -/
def pcAfter (s : State) : Instr → Word
  | .jp nnn | .call nnn => nnn.setWidth 16
  | .jpV0 nnn => nnn.setWidth 16 + (readV s 0#4).setWidth 16
  | .ret => s.stack[s.sp.val - 1]'(by have := s.sp.isLt; omega) + 2
  | .seImm x kk => if readV s x = kk then s.pc + 4 else s.pc + 2
  | .sneImm x kk => if readV s x ≠ kk then s.pc + 4 else s.pc + 2
  | .seReg x y => if readV s x = readV s y then s.pc + 4 else s.pc + 2
  | .sneReg x y => if readV s x ≠ readV s y then s.pc + 4 else s.pc + 2
  | .skp x => if s.keys.toList.getD (readV s x).toNat false = true then s.pc + 4 else s.pc + 2
  | .sknp x => if s.keys.toList.getD (readV s x).toNat false = false then s.pc + 4 else s.pc + 2
  | .cls | .sys _ | .ldImm _ _ | .addImm _ _ | .ldReg _ _ | .orReg _ _ | .andReg _ _ | .xorReg _ _ | .addReg _ _
  | .sub _ _ | .shr _ _ | .subn _ _ | .shl _ _ | .ldI _ | .rnd _ _ | .drw _ _ _ | .ldVDt _ | .ldVK _ | .ldDtV _
  | .ldStV _ | .addIV _ | .ldFV _ | .ldBV _ | .ldMemV _ | .ldVMem _ => s.pc + 2

/-- When an instruction faults (60_exceptions.md R302 to R304, R307): its own check, the only one it has (R309). -/
def faultCondition (s : State) : Instr → Prop
  | .ret => s.sp.val = 0
  | .call _ => s.sp.val = 16
  | .drw _ _ n => 0 < n.toNat ∧ 0xFFF < s.i.toNat + n.toNat - 1
  | .skp x | .sknp x => 15 < (readV s x).toNat
  | .ldBV _ => 0xFFF < s.i.toNat + 2
  | .ldMemV x | .ldVMem x => 0xFFF < s.i.toNat + x.toNat
  | .cls | .sys _ | .jp _ | .seImm _ _ | .sneImm _ _ | .seReg _ _ | .sneReg _ _ | .ldImm _ _ | .addImm _ _
  | .ldReg _ _ | .orReg _ _ | .andReg _ _ | .xorReg _ _ | .addReg _ _ | .sub _ _ | .shr _ _ | .subn _ _ | .shl _ _
  | .ldI _ | .jpV0 _ | .rnd _ _ | .ldVDt _ | .ldVK _ | .ldDtV _ | .ldStV _ | .addIV _ | .ldFV _ => False

/-- The parts an instruction writes when it completes (10_state.md R33, R35, R42, R44, R48, R49, R55, R57). `draws` is
the model's own. -/
def writtenParts : Instr → List StatePart
  | .cls => [.gfx, .draw, .pc]
  | .ret => [.sp, .pc]
  | .call _ => [.stack, .sp, .pc]
  | .sys _ | .jp _ | .jpV0 _ | .seImm _ _ | .sneImm _ _ | .seReg _ _ | .sneReg _ _ | .skp _ | .sknp _ => [.pc]
  | .ldImm _ _ | .addImm _ _ | .ldReg _ _ | .orReg _ _ | .andReg _ _ | .xorReg _ _ | .addReg _ _ | .sub _ _
  | .shr _ _ | .subn _ _ | .shl _ _ | .ldVDt _ | .ldVK _ | .ldVMem _ => [.v, .pc]
  | .rnd _ _ => [.v, .pc, .draws]
  | .ldI _ | .addIV _ | .ldFV _ => [.i, .pc]
  | .drw _ _ _ => [.gfx, .v, .draw, .pc]
  | .ldDtV _ => [.dt, .pc]
  | .ldStV _ => [.st, .pc]
  | .ldBV _ | .ldMemV _ => [.mem, .pc]

/-- The general registers an instruction writes: its destination (10_state.md R33), and `VF` for the six instructions
that have a flag (R35). -/
def writesV : Instr → Nibble → Bool
  | .ldImm x _, z | .addImm x _, z | .ldReg x _, z | .orReg x _, z | .andReg x _, z | .xorReg x _, z => z == x
  | .addReg x _, z | .sub x _, z | .shr x _, z | .subn x _, z | .shl x _, z => z == x || z == 0xF#4
  | .rnd x _, z | .ldVDt x, z | .ldVK x, z => z == x
  | .drw _ _ _, z => z == 0xF#4
  | .ldVMem x, z => decide (z.toNat ≤ x.toNat)
  | .cls, _ | .ret, _ | .sys _, _ | .jp _, _ | .call _, _ | .seImm _ _, _ | .sneImm _ _, _ | .seReg _ _, _
  | .sneReg _ _, _ | .ldI _, _ | .jpV0 _, _ | .skp _, _ | .sknp _, _ | .ldDtV _, _ | .ldStV _, _ | .addIV _, _
  | .ldFV _, _ | .ldBV _, _ | .ldMemV _, _ => false

/-- The bytes an instruction stores to (20_memory.md R76): three from `I`, or `x + 1` from `I`. -/
def storesTo (s : State) : Instr → Nat → Bool
  | .ldBV _, a => decide (s.i.toNat ≤ a ∧ a ≤ s.i.toNat + 2)
  | .ldMemV x, a => decide (s.i.toNat ≤ a ∧ a ≤ s.i.toNat + x.toNat)
  | .cls, _ | .ret, _ | .sys _, _ | .jp _, _ | .call _, _ | .seImm _ _, _ | .sneImm _ _, _ | .seReg _ _, _
  | .sneReg _ _, _ | .ldImm _ _, _ | .addImm _ _, _ | .ldReg _ _, _ | .orReg _ _, _ | .andReg _ _, _ | .xorReg _ _, _
  | .addReg _ _, _ | .sub _ _, _ | .shr _ _, _ | .subn _ _, _ | .shl _ _, _ | .ldI _, _ | .jpV0 _, _ | .rnd _ _, _
  | .drw _ _ _, _ | .skp _, _ | .sknp _, _ | .ldVDt _, _ | .ldVK _, _ | .ldDtV _, _ | .ldStV _, _ | .addIV _, _
  | .ldFV _, _ | .ldVMem _, _ => false

end Sys2Proof.Machine
end

