-- ==== Sys2Proof/Certificates/Slice0/Obligations.lean ====
section
/-! DEFINITION. The statements for the provers. Each docstring names the rules of spec/ it formalises. Where a clause
rests on a decision of the spec (92_eei_decisions.md), on an inference the spec marks, or on the model's own choice,
the docstring says so. Wherever `Unchanged` stands, that nothing else changes is the frame rule R15, the spec's decision
D10; where `RaisesFrom` stands, that a fault changes only the record is R14, its decision D2. -/

open Sys2Proof Sys2Proof.Machine

/-! ### Encoding -/

/-- R101: the fields are the named bit ranges of the word. -/
def Obligations.WordFieldsAreBitRanges : Prop :=
  ∀ w : Word,
    (famField w).toNat = w.toNat / 4096 ∧ (xField w).toNat = w.toNat / 256 % 16 ∧
    (yField w).toNat = w.toNat / 16 % 16 ∧ (nField w).toNat = w.toNat % 16 ∧
    (kkField w).toNat = w.toNat % 256 ∧ (nnnField w).toNat = w.toNat % 4096

/-- 30_encoding.md §2: decoding the encoding of a well-formed instruction gives it back, every operand at every value.
That the words of families 5 and 9 fix `n = 0` is the spec's decision D7. -/
def Obligations.DecodeOfEncode : Prop := ∀ ins : Instr, ins.wf = true → decode (encode ins) = .ok ins

/-- 30_encoding.md §2: a word that decodes is the encoding of its instruction, so no bit is dropped. -/
def Obligations.EncodeOfDecode : Prop :=
  ∀ (w : Word) (ins : Instr), decode w = .ok ins → encode ins = w ∧ ins.wf = true

/-- R104: the decoder's answer is the first row of the opcode table that selects the word, with the two specific rows of
family 0 before `0nnn`; and no two other rows select one word. The rows `5xy0` and `9xy0` carry the spec's decision
D7. -/
def Obligations.DecodeFollowsOpcodeTable : Prop :=
  (∀ w : Word, opcodeTable.find? (fun row => row.selects w) = match decode w with
    | .ok ins => some (rowOf ins)
    | .error _ => none) ∧
  (∀ w : Word, ∀ row ∈ opcodeTable, ∀ row' ∈ opcodeTable, row.selects w = true → row'.selects w = true →
    row = row' ∨ row = rowOf (.sys 0) ∨ row' = rowOf (.sys 0))

/-- R106's table (families 5 and 9 by the spec's decision D7): the illegal words. -/
def Obligations.IllegalWordsExactly : Prop :=
  ∀ w : Word, (∃ e, decode w = .error e) ↔
    ((famField w = 0x5#4 ∨ famField w = 0x9#4) ∧ nField w ≠ 0#4) ∨
    (famField w = 0x8#4 ∧ (nField w).toNat ∈ [0x8, 0x9, 0xA, 0xB, 0xC, 0xD, 0xF]) ∨
    (famField w = 0xE#4 ∧ (kkField w).toNat ∉ [0x9E, 0xA1]) ∨
    (famField w = 0xF#4 ∧ (kkField w).toNat ∉ [0x07, 0x0A, 0x15, 0x18, 0x1E, 0x29, 0x33, 0x55, 0x65])

/-- Words written out from the patterns of 30_encoding.md §2, one of each shape. -/
def Obligations.SampleWordsDecode : Prop :=
  decode 0x00EE = .ok .ret ∧ decode 0x0123 = .ok (.sys 0x123) ∧ decode 0x2ABC = .ok (.call 0xABC) ∧
  decode 0x3A42 = .ok (.seImm 0xA 0x42) ∧ decode 0x8127 = .ok (.subn 1 2) ∧ decode 0xD56F = .ok (.drw 5 6 0xF) ∧
  decode 0xE49E = .ok (.skp 4) ∧ decode 0xF755 = .ok (.ldMemV 7)

/-! ### Fetch and reset -/

/-- 20_memory.md §2 (R75): a fetch below 0xFFF reads the high byte at `PC` and the low byte at `PC + 1`. The bound is the
spec's decision D4. -/
def Obligations.FetchIsBigEndian : Prop :=
  ∀ s : State, s.pc.toNat < 0xFFF → ∃ w, fetch s = .ok w ∧
    w.toNat = (readByte s s.pc.toNat).toNat * 256 + (readByte s (s.pc.toNat + 1)).toNat

/-- R63, R73: the state after reset. The glyph bytes are the open parameter `GLYPHS`; that `fault` is none is the spec's
decision D28; the model's own counter `draws` is not mentioned. -/
def Obligations.ResetState : Prop :=
  (∀ d : Fin 16, ∀ k : Fin 5, readByte State.reset (0x050 + 5 * d.val + k.val) =
    Config.glyphs[5 * d.val + k.val]'(by have := d.isLt; have := k.isLt; omega)) ∧
  (∀ a, a < 0x050 ∨ (0x09F < a ∧ a ≤ 0xFFF) → readByte State.reset a = 0) ∧
  (∀ x, readV State.reset x = 0) ∧
  State.reset.i = 0 ∧ State.reset.pc = 0x200 ∧
  (∀ j : Fin 16, State.reset.stack[j.val] = 0) ∧ State.reset.sp = 0 ∧
  State.reset.dt = 0 ∧ State.reset.st = 0 ∧
  (∀ k : Fin 16, State.reset.keys[k.val] = false) ∧
  (∀ c r, pixel State.reset c r = false) ∧
  State.reset.draw = false ∧ State.reset.fault = none

/-! ### Families 0, 1 and 2 -/

/-- 41_family_0_1_2.md, `00E0`: the buffer is cleared. That `draw` is set is the spec's decision D14. -/
def Obligations.ClearDisplay : Prop :=
  ∀ s : State, ∃ t, exec .cls s = .next t ∧ (∀ c r, pixel t c r = false) ∧ t.draw = true ∧ t.pc = s.pc + 2 ∧
    Unchanged [.gfx, .draw, .pc] s t

/-- R151: `00EE` pops and goes to `stack[SP] + 2`, the slot kept; with `SP = 0` it raises `StackUnderflowFault`. -/
def Obligations.ReturnPopsAndAddsTwo : Prop :=
  ∀ s : State,
    (∀ j : Fin 16, s.sp.val = j.val + 1 → ∃ t, exec .ret s = .next t ∧ t.sp.val = j.val ∧
      t.pc = s.stack[j.val] + 2 ∧ Unchanged [.sp, .pc] s t) ∧
    (s.sp.val = 0 → RaisesFrom s
      { code := .stackUnderflow, pc := s.pc, word := some 0x00EE, kind := none, addr := none, key := none }
      (exec .ret s))

/-- R152, R153: `0nnn` only advances `PC`; `1nnn` sets it to the zero-extended `nnn`. -/
def Obligations.NoOpAndJump : Prop :=
  (∀ w : Word, famField w = 0x0#4 → w ≠ 0x00E0 → w ≠ 0x00EE → decode w = .ok (.sys (nnnField w))) ∧
  (∀ w : Word, famField w = 0x1#4 → decode w = .ok (.jp (nnnField w))) ∧
  ∀ (s : State) (nnn : Addr12),
    (∃ t, exec (.sys nnn) s = .next t ∧ t.pc = s.pc + 2 ∧ Unchanged [.pc] s t) ∧
    (∃ t, exec (.jp nnn) s = .next t ∧ t.pc.toNat = nnn.toNat ∧ Unchanged [.pc] s t)

/-- R154: `2nnn` pushes its own address and jumps; with `SP = 16` it raises `StackOverflowFault`. -/
def Obligations.CallPushesItsOwnAddress : Prop :=
  ∀ (s : State) (nnn : Addr12),
    (∀ j : Fin 16, s.sp.val = j.val → ∃ t, exec (.call nnn) s = .next t ∧ t.stack[j.val] = s.pc ∧
      (∀ k : Fin 16, k ≠ j → t.stack[k.val] = s.stack[k.val]) ∧
      t.sp.val = j.val + 1 ∧ t.pc.toNat = nnn.toNat ∧ Unchanged [.stack, .sp, .pc] s t) ∧
    (s.sp.val = 16 → RaisesFrom s
      { code := .stackOverflow, pc := s.pc, word := some (encode (.call nnn)), kind := none, addr := none, key := none }
      (exec (.call nnn) s))

/-! ### Families 3 to 7 and 9 -/

/-- R170, R171: the skips on a byte. -/
def Obligations.SkipOnByte : Prop :=
  (∀ w : Word, famField w = 0x3#4 → decode w = .ok (.seImm (xField w) (kkField w))) ∧
  (∀ w : Word, famField w = 0x4#4 → decode w = .ok (.sneImm (xField w) (kkField w))) ∧
  ∀ (s : State) (x : Nibble) (kk : Byte),
    (∃ t, exec (.seImm x kk) s = .next t ∧ t.pc = (if readV s x = kk then s.pc + 4 else s.pc + 2) ∧
      Unchanged [.pc] s t) ∧
    (∃ t, exec (.sneImm x kk) s = .next t ∧ t.pc = (if readV s x ≠ kk then s.pc + 4 else s.pc + 2) ∧
      Unchanged [.pc] s t)

/-- 42_family_3_to_7.md `5xy0` and 44_family_9_to_C.md `9xy0`: the skips on two registers. -/
def Obligations.SkipOnRegisters : Prop :=
  ∀ (s : State) (x y : Nibble),
    (∃ t, exec (.seReg x y) s = .next t ∧ t.pc = (if readV s x = readV s y then s.pc + 4 else s.pc + 2) ∧
      Unchanged [.pc] s t) ∧
    (∃ t, exec (.sneReg x y) s = .next t ∧ t.pc = (if readV s x ≠ readV s y then s.pc + 4 else s.pc + 2) ∧
      Unchanged [.pc] s t)

/-- R173, R174: load and add of a byte; the sum is modulo 256 and `VF` is no flag. -/
def Obligations.ImmediateLoadAndAdd : Prop :=
  (∀ w : Word, famField w = 0x6#4 → decode w = .ok (.ldImm (xField w) (kkField w))) ∧
  (∀ w : Word, famField w = 0x7#4 → decode w = .ok (.addImm (xField w) (kkField w))) ∧
  ∀ (s : State) (x : Nibble) (kk : Byte),
    (∃ t, exec (.ldImm x kk) s = .next t ∧ readV t x = kk ∧ (∀ z, z ≠ x → readV t z = readV s z) ∧
      t.pc = s.pc + 2 ∧ Unchanged [.v, .pc] s t) ∧
    (∃ t, exec (.addImm x kk) s = .next t ∧ (readV t x).toNat = ((readV s x).toNat + kk.toNat) % 256 ∧
      (∀ z, z ≠ x → readV t z = readV s z) ∧ t.pc = s.pc + 2 ∧ Unchanged [.v, .pc] s t)

/-! ### Family 8 -/

/-- R190 to R193: copy, OR, AND, XOR; `VF` is no flag. -/
def Obligations.CopyAndBitwise : Prop :=
  (∀ w : Word, famField w = 0x8#4 →
    (nField w = 0x0#4 → decode w = .ok (.ldReg (xField w) (yField w))) ∧
    (nField w = 0x1#4 → decode w = .ok (.orReg (xField w) (yField w))) ∧
    (nField w = 0x2#4 → decode w = .ok (.andReg (xField w) (yField w))) ∧
    (nField w = 0x3#4 → decode w = .ok (.xorReg (xField w) (yField w)))) ∧
  ∀ (s : State) (x y : Nibble),
    ∀ p ∈ [(Instr.ldReg x y, readV s y), (Instr.orReg x y, readV s x ||| readV s y),
      (Instr.andReg x y, readV s x &&& readV s y), (Instr.xorReg x y, readV s x ^^^ readV s y)],
    ∃ t, exec p.1 s = .next t ∧ readV t x = p.2 ∧ (∀ z, z ≠ x → readV t z = readV s z) ∧
      t.pc = s.pc + 2 ∧ Unchanged [.v, .pc] s t

/-- 43_family_8.md `8xy4`: the sum of the old values modulo 256, and the carry in `VF` unless `x` is 15 (the order when
`x` or `y` is 15 is the spec's decision D9). -/
def Obligations.AddWithCarryOut : Prop :=
  ∀ (s : State) (x y : Nibble), ∃ t, exec (.addReg x y) s = .next t ∧
    (readV t x).toNat = ((readV s x).toNat + (readV s y).toNat) % 256 ∧
    (x ≠ 0xF#4 → (readV t 0xF#4).toNat = if 255 < (readV s x).toNat + (readV s y).toNat then 1 else 0) ∧
    (∀ z, z ≠ x → z ≠ 0xF#4 → readV t z = readV s z) ∧ t.pc = s.pc + 2 ∧ Unchanged [.v, .pc] s t

/-- 43_family_8.md `8xy5` and `8xy7`: the flag is a strict comparison; the difference reads `VF` after the flag write
(the spec's decision D9). -/
def Obligations.SubtractBothWays : Prop :=
  ∀ (s : State) (x y : Nibble),
    (∃ t, exec (.sub x y) s = .next t ∧
      (∀ f : Nat, f = (if (readV s y).toNat < (readV s x).toNat then 1 else 0) →
        (readV t x).toNat = ((if x = 0xF#4 then f else (readV s x).toNat) + 256 -
          (if y = 0xF#4 then f else (readV s y).toNat)) % 256 ∧
        (x ≠ 0xF#4 → (readV t 0xF#4).toNat = f)) ∧
      (∀ z, z ≠ x → z ≠ 0xF#4 → readV t z = readV s z) ∧ t.pc = s.pc + 2 ∧ Unchanged [.v, .pc] s t) ∧
    (∃ t, exec (.subn x y) s = .next t ∧
      (∀ f : Nat, f = (if (readV s x).toNat < (readV s y).toNat then 1 else 0) →
        (readV t x).toNat = ((if y = 0xF#4 then f else (readV s y).toNat) + 256 -
          (if x = 0xF#4 then f else (readV s x).toNat)) % 256 ∧
        (x ≠ 0xF#4 → (readV t 0xF#4).toNat = f)) ∧
      (∀ z, z ≠ x → z ≠ 0xF#4 → readV t z = readV s z) ∧ t.pc = s.pc + 2 ∧ Unchanged [.v, .pc] s t)

/-- 43_family_8.md `8xy6` and `8xyE`: the bit shifted out in `VF`, whatever `y` is; the shift reads `VF` after the flag
write (the spec's decision D9). -/
def Obligations.ShiftsByOne : Prop :=
  ∀ (s : State) (x y : Nibble),
    (∃ t, exec (.shr x y) s = .next t ∧
      (readV t x).toNat = (if x = 0xF#4 then (readV s x).toNat % 2 else (readV s x).toNat) / 2 ∧
      (x ≠ 0xF#4 → (readV t 0xF#4).toNat = (readV s x).toNat % 2) ∧
      (∀ z, z ≠ x → z ≠ 0xF#4 → readV t z = readV s z) ∧ t.pc = s.pc + 2 ∧ Unchanged [.v, .pc] s t) ∧
    (∃ t, exec (.shl x y) s = .next t ∧
      (readV t x).toNat = (if x = 0xF#4 then (readV s x).toNat / 128 else (readV s x).toNat) * 2 % 256 ∧
      (x ≠ 0xF#4 → (readV t 0xF#4).toNat = (readV s x).toNat / 128) ∧
      (∀ z, z ≠ x → z ≠ 0xF#4 → readV t z = readV s z) ∧ t.pc = s.pc + 2 ∧ Unchanged [.v, .pc] s t)

/-! ### Families A to F without memory -/

/-- R211, R265: `Annn` and `Fx29`, whose address is exact and unmasked. -/
def Obligations.IndexLoads : Prop :=
  (∀ w : Word, famField w = 0xA#4 → decode w = .ok (.ldI (nnnField w))) ∧
  (∀ w : Word, famField w = 0xF#4 → kkField w = 0x29#8 → decode w = .ok (.ldFV (xField w))) ∧
  ∀ (s : State) (nnn : Addr12) (x : Nibble),
    (∃ t, exec (.ldI nnn) s = .next t ∧ t.i.toNat = nnn.toNat ∧ t.pc = s.pc + 2 ∧ Unchanged [.i, .pc] s t) ∧
    (∃ t, exec (.ldFV x) s = .next t ∧ t.i.toNat = 0x050 + 5 * (readV s x).toNat ∧ t.pc = s.pc + 2 ∧
      Unchanged [.i, .pc] s t)

/-- 47_family_F.md `Fx1E`: the sum modulo 65536 (the spec's decision D5), `VF` unchanged. -/
def Obligations.AddToIndex : Prop :=
  ∀ (s : State) (x : Nibble), ∃ t, exec (.addIV x) s = .next t ∧
    t.i.toNat = (s.i.toNat + (readV s x).toNat) % 65536 ∧ t.pc = s.pc + 2 ∧ Unchanged [.i, .pc] s t

/-- R212: `Bnnn` goes to `nnn + V[0]`, with no further 2. -/
def Obligations.JumpWithOffset : Prop :=
  (∀ w : Word, famField w = 0xB#4 → decode w = .ok (.jpV0 (nnnField w))) ∧
  ∀ (s : State) (nnn : Addr12), ∃ t, exec (.jpV0 nnn) s = .next t ∧
    t.pc.toNat = (nnn.toNat + (readV s 0#4).toNat) % 65536 ∧ Unchanged [.pc] s t

/-- 44_family_9_to_C.md `Cxkk` (the draw is the spec's decision D17): `V[x]` is the random byte AND `kk`, for every byte
offered to the cycle; `exec` takes the byte from the free values of log entry 2, and counts it (the model's own). -/
def Obligations.RandomByteMasked : Prop :=
  ∀ (s : State) (x : Nibble) (kk : Byte),
    (∀ r : Byte, ∃ t, execWith r (.rnd x kk) s = .next t ∧ readV t x = r &&& kk ∧
      (∀ z, z ≠ x → readV t z = readV s z) ∧ t.pc = s.pc + 2 ∧ Unchanged [.v, .pc, .draws] s t) ∧
    (∃ t, exec (.rnd x kk) s = .next t ∧ readV t x = Config.drawByte s.draws &&& kk ∧
      (∀ z, z ≠ x → readV t z = readV s z) ∧ t.pc = s.pc + 2 ∧ t.draws = s.draws + 1 ∧
      Unchanged [.v, .pc, .draws] s t)

/-- 46_family_E.md: the skips on a key; an index above 15 raises `KeyIndexFault` (the spec's decision D8). -/
def Obligations.KeySkips : Prop :=
  ∀ (s : State) (x : Nibble),
    (∀ k : Fin 16, (readV s x).toNat = k.val →
      (∃ t, exec (.skp x) s = .next t ∧ t.pc = (if s.keys[k.val] = true then s.pc + 4 else s.pc + 2) ∧
        Unchanged [.pc] s t) ∧
      (∃ t, exec (.sknp x) s = .next t ∧ t.pc = (if s.keys[k.val] = false then s.pc + 4 else s.pc + 2) ∧
        Unchanged [.pc] s t)) ∧
    (15 < (readV s x).toNat → ∀ ins ∈ [Instr.skp x, Instr.sknp x], RaisesFrom s
      { code := .keyIndex, pc := s.pc, word := some (encode ins), kind := none, addr := none, key := some (readV s x) }
      (exec ins s))

/-- 47_family_F.md `Fx0A`: the lowest pressed key; with none pressed only `PC` advances (not waiting is the spec's
decision D15). -/
def Obligations.KeyCheckNeverWaits : Prop :=
  ∀ (s : State) (x : Nibble),
    (∀ k : Fin 16, s.keys[k.val] = true → (∀ j : Fin 16, j < k → s.keys[j.val] = false) →
      ∃ t, exec (.ldVK x) s = .next t ∧ (readV t x).toNat = k.val ∧ (∀ z, z ≠ x → readV t z = readV s z) ∧
        t.pc = s.pc + 2 ∧ Unchanged [.v, .pc] s t) ∧
    ((∀ k : Fin 16, s.keys[k.val] = false) →
      ∃ t, exec (.ldVK x) s = .next t ∧ t.pc = s.pc + 2 ∧ Unchanged [.pc] s t)

/-- 47_family_F.md `Fx07`, `Fx15`, `Fx18`: the transfers between a register and a timer, before the cycle's decrement. -/
def Obligations.TimerTransfers : Prop :=
  ∀ (s : State) (x : Nibble),
    (∃ t, exec (.ldVDt x) s = .next t ∧ readV t x = s.dt ∧ (∀ z, z ≠ x → readV t z = readV s z) ∧
      t.pc = s.pc + 2 ∧ Unchanged [.v, .pc] s t) ∧
    (∃ t, exec (.ldDtV x) s = .next t ∧ t.dt = readV s x ∧ t.pc = s.pc + 2 ∧ Unchanged [.dt, .pc] s t) ∧
    (∃ t, exec (.ldStV x) s = .next t ∧ t.st = readV s x ∧ t.pc = s.pc + 2 ∧ Unchanged [.st, .pc] s t)

/-! ### Sprites -/

/-- 45_family_D_draw.md: a draw inside memory toggles exactly the pixels under the sprite's set bits, `VF` tells whether
one of them was on, and `draw` is set, also with `n = 0`. Clipping, bit order and `n = 0` are the spec's decisions
D11, D12 and D13; that the origin is read before `VF` changes is D9. -/
def Obligations.SpriteTogglesAndCollides : Prop :=
  ∀ (s : State) (x y n : Nibble), (n.toNat = 0 ∨ s.i.toNat + n.toNat - 1 ≤ 0xFFF) →
    ∃ t, exec (.drw x y n) s = .next t ∧
      (∀ c r, pixel t c r = (pixel s c r ^^ spriteCovers s x y n c r)) ∧
      ((∃ c r, pixel s c r = true ∧ spriteCovers s x y n c r = true) → readV t 0xF#4 = 1) ∧
      ((∀ c r, pixel s c r = true → spriteCovers s x y n c r = false) → readV t 0xF#4 = 0) ∧
      (∀ z, z ≠ 0xF#4 → readV t z = readV s z) ∧ t.draw = true ∧ t.pc = s.pc + 2 ∧
      Unchanged [.gfx, .v, .draw, .pc] s t

/-- 45_family_D_draw.md, the example of `Dxyn`: the same draw twice, with an origin that is not `VF`, restores the buffer;
on an all-off buffer the first reports no collision, and the second reports one exactly when the sprite covers a
pixel. It rests on the spec's decisions D11 and D12. -/
def Obligations.DrawTwiceRestores : Prop :=
  ∀ (s t u : State) (x y n : Nibble), x ≠ 0xF#4 → y ≠ 0xF#4 → (n.toNat = 0 ∨ s.i.toNat + n.toNat - 1 ≤ 0xFFF) →
    exec (.drw x y n) s = .next t → exec (.drw x y n) t = .next u →
    u.gfx = s.gfx ∧
    ((∀ c r, pixel s c r = false) → readV t 0xF#4 = 0 ∧
      readV u 0xF#4 = if ∃ c r, spriteCovers s x y n c r = true then 1 else 0)

/-! ### Memory instructions -/

/-- R266 and the bounds of R267 (its check before any effect is the spec's decision D2, D4): `Fx33` stores the three
decimal digits at `I`, and no other byte changes. A bounds fault is `BoundsFaultsRecorded`. Memory in its canonical
form is an invariant (`InvariantKept`). -/
def Obligations.DecimalStore : Prop :=
  ∀ (s : State) (x : Nibble), Memory.wf s.mem = true → s.i.toNat + 2 ≤ 0xFFF →
    ∃ t, exec (.ldBV x) s = .next t ∧
      (readByte t s.i.toNat).toNat = (readV s x).toNat / 100 ∧
      (readByte t (s.i.toNat + 1)).toNat = (readV s x).toNat / 10 % 10 ∧
      (readByte t (s.i.toNat + 2)).toNat = (readV s x).toNat % 10 ∧
      (∀ a, a < s.i.toNat ∨ s.i.toNat + 2 < a → readByte t a = readByte s a) ∧
      t.pc = s.pc + 2 ∧ Unchanged [.mem, .pc] s t

/-- 47_family_F.md `Fx55`: `V[0]` to `V[x]` at `I`, no other byte changes; `I` is unchanged (the spec's decision D10). -/
def Obligations.StoreRegisters : Prop :=
  ∀ (s : State) (x : Nibble), Memory.wf s.mem = true → s.i.toNat + x.toNat ≤ 0xFFF →
    ∃ t, exec (.ldMemV x) s = .next t ∧
      (∀ z : Nibble, z.toNat ≤ x.toNat → readByte t (s.i.toNat + z.toNat) = readV s z) ∧
      (∀ a, a < s.i.toNat ∨ s.i.toNat + x.toNat < a → readByte t a = readByte s a) ∧
      t.pc = s.pc + 2 ∧ Unchanged [.mem, .pc] s t

/-- 47_family_F.md `Fx65`: `V[0]` to `V[x]` from `I`, no other register changes; `I` is unchanged (the spec's decision
D10). -/
def Obligations.LoadRegisters : Prop :=
  ∀ (s : State) (x : Nibble), s.i.toNat + x.toNat ≤ 0xFFF →
    ∃ t, exec (.ldVMem x) s = .next t ∧
      (∀ z : Nibble, z.toNat ≤ x.toNat → readV t z = readByte s (s.i.toNat + z.toNat)) ∧
      (∀ z : Nibble, x.toNat < z.toNat → readV t z = readV s z) ∧
      t.pc = s.pc + 2 ∧ Unchanged [.v, .pc] s t

/-- 20_memory.md §3, 47_family_F.md, 45_family_D_draw.md (the spec's decisions D2 to D4): an access past 0xFFF raises
`MemoryBoundsFault` with the lowest offending address, and nothing else changes. -/
def Obligations.BoundsFaultsRecorded : Prop :=
  ∀ (s : State),
    (∀ x y n : Nibble, 0 < n.toNat → 0xFFF < s.i.toNat + n.toNat - 1 → RaisesFrom s
      { code := .memoryBounds, pc := s.pc, word := some (encode (.drw x y n)), kind := some .read,
        addr := some (max s.i.toNat 0x1000), key := none } (exec (.drw x y n) s)) ∧
    (∀ x : Nibble, 0xFFF < s.i.toNat + 2 → RaisesFrom s
      { code := .memoryBounds, pc := s.pc, word := some (encode (.ldBV x)), kind := some .write,
        addr := some (max s.i.toNat 0x1000), key := none } (exec (.ldBV x) s)) ∧
    (∀ x : Nibble, 0xFFF < s.i.toNat + x.toNat →
      RaisesFrom s
        { code := .memoryBounds, pc := s.pc, word := some (encode (.ldMemV x)), kind := some .write,
          addr := some (max s.i.toNat 0x1000), key := none } (exec (.ldMemV x) s) ∧
      RaisesFrom s
        { code := .memoryBounds, pc := s.pc, word := some (encode (.ldVMem x)), kind := some .read,
          addr := some (max s.i.toNat 0x1000), key := none } (exec (.ldVMem x) s))

/-- 47_family_F.md `Fx65` (an inference the spec marks): a block load with the `I`, `x` and bytes a block store left
restores the registers. -/
def Obligations.StoreLoadRoundTrip : Prop :=
  ∀ (s t u w : State) (x : Nibble), Memory.wf s.mem = true → s.i.toNat + x.toNat ≤ 0xFFF →
    exec (.ldMemV x) s = .next t → u.i = t.i →
    (∀ z : Nibble, z.toNat ≤ x.toNat → readByte u (s.i.toNat + z.toNat) = readByte t (s.i.toNat + z.toNat)) →
    exec (.ldVMem x) u = .next w →
    ∀ z : Nibble, z.toNat ≤ x.toNat → readV w z = readV s z

/-! ### The cycle -/

/-- 40_cycle.md §2: when the bytes at `PC` decode, a step of a running block is `exec` of the instruction with `draw`
cleared, and then the timers, unless the instruction raised a fault (recording it is the spec's decision D2). -/
def Obligations.StepRunsDecodedInstruction : Prop :=
  ∀ (s : State) (ins : Instr), s.fault = none → s.pc.toNat < 0xFFF →
    decode (wordOfBytes (readByte s s.pc.toNat) (readByte s (s.pc.toNat + 1))) = .ok ins →
    ∃ u, exec ins { s with draw := false } = .next u ∧
      (u.fault = none → ∃ t, step s = .next t ∧ t.dt.toNat = u.dt.toNat - 1 ∧ t.st.toNat = u.st.toNat - 1 ∧
        t = { u with dt := t.dt, st := t.st }) ∧
      (u.fault ≠ none → step s = .next u)

/-- 60_exceptions.md §1 (the spec's decisions D2, D4, D26): the faults before an instruction, in their order: the fetch
bounds, then decode. -/
def Obligations.FetchThenDecodeFaults : Prop :=
  ∀ s : State, s.fault = none →
    (0xFFF ≤ s.pc.toNat → RaisesFrom { s with draw := false }
      { code := .memoryBounds, pc := s.pc, word := none, kind := some .fetch, addr := some (max s.pc.toNat 0x1000),
        key := none } (step s)) ∧
    (∀ w, s.pc.toNat < 0xFFF → w = wordOfBytes (readByte s s.pc.toNat) (readByte s (s.pc.toNat + 1)) →
      (∀ ins, decode w ≠ .ok ins) → RaisesFrom { s with draw := false }
      { code := .unknownOpcode, pc := s.pc, word := some w, kind := none, addr := none, key := none } (step s))

/-- 60_exceptions.md §1, the halt (the spec's decision D2): a block with a fault recorded does nothing, whatever byte it is
offered. -/
def Obligations.HaltedBlockDoesNothing : Prop :=
  ∀ (s : State) (r : FaultRecord), s.fault = some r → step s = .next s ∧ ∀ b : Byte, cycle b s = .next s

/-- 60_exceptions.md §1 and 40_cycle.md (the spec's decision D2): a cycle that raises a fault changes only `draw`, which is
cleared, and `fault`; the record names the address, and the fetched word if there is one. -/
def Obligations.FaultsArePrecise : Prop :=
  ∀ (s t : State) (r : FaultRecord), s.fault = none → step s = .next t → t.fault = some r →
    Unchanged [.draw, .fault] s t ∧ t.draw = false ∧ r.pc = s.pc ∧
    r.word = (match fetch s with | .ok w => some w | .error _ => none)

/-- 60_exceptions.md §1 (the stack bounds from R302 and R303, the others from the spec's decisions D4 and D8): an
instruction raises a fault exactly under its own condition, and no other instruction raises one. -/
def Obligations.FaultConditionsExactly : Prop :=
  ∀ (s t : State) (ins : Instr), s.fault = none → exec ins s = .next t →
    (t.fault ≠ none ↔ faultCondition s ins)

/-- 40_cycle.md §1 and 60_exceptions.md: every cycle ends in a next state, in every state: with one instruction executed,
or a fault recorded, or, halted, the same state. That a fault is a next state is log entry 1 (DESIGN CHOICE). -/
def Obligations.EveryStepAnswersNext : Prop :=
  ∀ s : State, ∃ t, step s = .next t ∧
    ((∃ ins, Completes s ins t) ∨ (s.fault = none ∧ ∃ r, t.fault = some r) ∨ (s.fault ≠ none ∧ t = s))

/-- R136: where `PC` goes in a completed cycle, and that a faulting cycle leaves it. -/
def Obligations.PcAdvancePolicy : Prop :=
  (∀ (s t : State) (ins : Instr), Completes s ins t → t.pc = pcAfter s ins) ∧
  (∀ s t : State, step s = .next t → t.fault ≠ none → t.pc = s.pc)

/-- 40_cycle.md, step 5 (one decrement a cycle is the spec's decision D16): both timers, after the write of an `Fx15` or
`Fx18`, never below 0. -/
def Obligations.TimersTickOncePerCycle : Prop :=
  ∀ (s t : State) (ins : Instr), Completes s ins t →
    t.dt.toNat = (match ins with | .ldDtV x => readV s x | _ => s.dt).toNat - 1 ∧
    t.st.toNat = (match ins with | .ldStV x => readV s x | _ => s.st).toNat - 1

/-- 10_state.md §10 (an inference the spec marks; `00E0` by its decision D14): after a completed cycle `draw` is true
exactly when the instruction was `00E0` or `Dxyn`. -/
def Obligations.DrawFlagExactly : Prop :=
  ∀ (s t : State) (ins : Instr), Completes s ins t →
    (t.draw = true ↔ ins = .cls ∨ ∃ x y n, ins = .drw x y n)

/-- 10_state.md §2 to §9 and 20_memory.md §3 (the frame is the spec's decision D10): which step can change what. The keys
never change; `I`, the stack, `SP`, a pixel, a register or a byte of memory only under an instruction that names it. -/
def Obligations.WritersOfState : Prop :=
  ∀ s t : State, step s = .next t →
    t.keys = s.keys ∧
    (t.i ≠ s.i → ∃ ins, nextInstr s = some ins ∧ ((∃ a, ins = .ldI a) ∨ (∃ x, ins = .addIV x) ∨ ∃ x, ins = .ldFV x)) ∧
    (t.stack ≠ s.stack → ∃ a, nextInstr s = some (.call a)) ∧
    (t.sp ≠ s.sp → (∃ a, nextInstr s = some (.call a)) ∨ nextInstr s = some .ret) ∧
    (t.gfx ≠ s.gfx → nextInstr s = some .cls ∨ ∃ x y n, nextInstr s = some (.drw x y n)) ∧
    (∀ z, readV t z ≠ readV s z → ∃ ins, nextInstr s = some ins ∧ writesV ins z = true) ∧
    (∀ a, readByte t a ≠ readByte s a → ∃ ins, nextInstr s = some ins ∧ storesTo s ins a = true)

/-- 00_scope.md §4, the frame rule (the spec's decision D10): an instruction writes only the parts its rule names, or,
faulting, `fault` alone. -/
def Obligations.FrameOfEveryInstruction : Prop :=
  ∀ (s t : State) (ins : Instr), s.fault = none → exec ins s = .next t →
    (t.fault = none → Unchanged (writtenParts ins) s t) ∧ (t.fault ≠ none → Unchanged [.fault] s t)

/-- 40_cycle.md §2: `step` is the cycle with the next free byte (log entry 2, the model's own), and only `Cxkk` reads the
byte. -/
def Obligations.StepIsCycleOfDraw : Prop :=
  (∀ s : State, step s = cycle (Config.drawByte s.draws) s) ∧
  (∀ (s : State) (r r' : Byte), (∀ x kk, nextInstr s ≠ some (.rnd x kk)) → cycle r s = cycle r' s) ∧
  (∀ (s : State) (r : Byte) (x : Nibble) (kk : Byte), nextInstr s = some (.rnd x kk) →
    ∃ t, cycle r s = .next t ∧ readV t x = r &&& kk ∧ t.fault = none)

/-- 10_state.md §13: what a cycle does not read. `ST` and `draw` are read by no instruction, `keys` by `Ex9E`, `ExA1` and
`Fx0A` alone, the model's own `draws` by `Cxkk` alone. -/
def Obligations.HiddenStateIsUnread : Prop :=
  ∀ (s : State) (ins : Instr), nextInstr s = some ins → ∃ t, step s = .next t ∧
    (∀ b, step { s with draw := b } = .next t) ∧
    (∀ b, ∃ b', step { s with st := b } = .next { t with st := b' }) ∧
    ((∀ x, ins ≠ .skp x ∧ ins ≠ .sknp x ∧ ins ≠ .ldVK x) →
      ∀ k, step { s with keys := k } = .next { t with keys := k }) ∧
    ((∀ x kk, ins ≠ .rnd x kk) → ∀ d, step { s with draws := d } = .next { t with draws := d })

/-- 10_state.md §6 (an inference the spec marks): a slot at or above `SP` is unobservable: two running blocks that differ
in such slots only stay so. -/
def Obligations.StaleSlotsUnobservable : Prop :=
  ∀ (s t : State) (other : Vector Word 16), (∀ j : Fin 16, j.val < s.sp.val → other[j.val] = s.stack[j.val]) →
    step s = .next t →
    ∃ other' : Vector Word 16, step { s with stack := other } = .next { t with stack := other' } ∧
      ∀ j : Fin 16, j.val < t.sp.val → other'[j.val] = t.stack[j.val]

/-! ### Sequences of two cycles -/

/-- 41_family_0_1_2.md, the round trip (an inference the spec marks): a call and the return at its target. -/
def Obligations.CallReturnRoundTrip : Prop :=
  ∀ (s t : State) (nnn : Addr12), nextInstr s = some (.call nnn) → s.sp.val < 16 → step s = .next t →
    nextInstr t = some .ret →
    ∃ u, step t = .next u ∧ u.pc = s.pc + 2 ∧ u.sp = s.sp ∧ u.fault = none

/-- 70_reset_and_hazards.md §4 (an inference the spec marks): the delay timer read back in the next cycle is one less
than what was written. -/
def Obligations.TimerReadBackIsOneLess : Prop :=
  ∀ (s t : State) (x y : Nibble), nextInstr s = some (.ldDtV x) → step s = .next t → nextInstr t = some (.ldVDt y) →
    ∃ u, step t = .next u ∧ (readV u y).toNat = (readV s x).toNat - 1

/-- 20_memory.md §5 (an inference the spec marks): a store over the instruction after it is what the next cycle
executes: with `I` at that instruction, its word is then `V[0]`, `V[1]`. -/
def Obligations.OverwrittenInstructionExecutes : Prop :=
  ∀ (s t : State) (x : Nibble), Memory.wf s.mem = true → nextInstr s = some (.ldMemV x) → 1 ≤ x.toNat →
    s.i.toNat = s.pc.toNat + 2 → s.i.toNat + x.toNat ≤ 0xFFF → step s = .next t →
    ∀ ins, decode (wordOfBytes (readV s 0#4) (readV s 1#4)) = .ok ins → nextInstr t = some ins

/-! ### The invariant -/

/-- 10_state.md §4 and §6, 60_exceptions.md §1: the invariant (canonical memory, `PC` below 0x10FF, fetchable return
addresses, a well-formed fault record) holds after reset. -/
def Obligations.InvariantAtReset : Prop := MachineInv State.reset

/-- 10_state.md §4 (the bound on `PC` is an inference the spec marks), §6, 60_exceptions.md §1: every step keeps the
invariant, from every state that meets it. -/
def Obligations.InvariantKept : Prop := ∀ s t : State, MachineInv s → step s = .next t → MachineInv t

/-- 60_exceptions.md §8: every operation of the host keeps the invariant, whatever boot phase the block is in. -/
def Obligations.HostOperationsKeepInvariant : Prop :=
  ∀ (op : HostOp) (b : Block), BlockInvariant b → BlockInvariant (hostStep op b).1

/-! ### The host's operations -/

/-- R353: a load of at most 3584 bytes on the reset state puts them at 0x200 and changes nothing else. -/
def Obligations.LoadPlacesProgram : Prop :=
  ∀ data : List Byte, data.length ≤ 3584 →
    ∃ t, loadRom (.bytes data.length data) State.reset = .ok t ∧
      (∀ (k : Nat) (h : k < data.length), readByte t (0x200 + k) = data[k]) ∧
      (∀ a, a < 0x200 ∨ 0x200 + data.length ≤ a → readByte t a = readByte State.reset a) ∧
      Unchanged [.mem] State.reset t

/-- 70_reset_and_hazards.md §2 (the spec's decision D19; that a failed load is the one load is log entry 5, DEDUCED): a
source that cannot be read, or whose size does not fit or match, fails and changes no state; a load out of its phase is
refused; before the first reset everything but reset is. -/
def Obligations.LoadFailsOrIsRefused : Prop :=
  (∀ s : State, hostStep (.load .unreadable) (.fresh s) = (.booted s, .loadFailed .unreadable)) ∧
  (∀ (s : State) (requested : Nat) (data : List Byte), data.length ≠ requested ∨ 3584 < data.length →
    hostStep (.load (.bytes requested data)) (.fresh s) = (.booted s, .loadFailed .sizeMismatch)) ∧
  (∀ (s : State) (rom : Rom), hostStep (.load rom) (.booted s) = (.booted s, .refused .loadOutOfPhase)) ∧
  (∀ op : HostOp, op ≠ .reset → hostStep op .unreset = (.unreset, .refused .beforeReset))

/-- 60_exceptions.md §6 and §8 (the port's index is the spec's decision D25): the outputs, the pixel of column `c` and row
`r` at index `r*64 + c`. -/
def Obligations.OutputsPresentState : Prop :=
  ∀ (s : State),
    (∀ (c : Fin 64) (r : Fin 32), (outputs s).display[r.val * 64 + c.val]'(by
      have := c.isLt; have := r.isLt; omega) = pixel s c r) ∧
    (outputs s).draw = s.draw ∧ (outputs s).st = s.st ∧ (outputs s).fault = s.fault ∧
    ((outputs s).soundActive = true ↔ 0 < s.st.toNat)
end

