-- ==== Sys2Proof/Laws/Decode.lean ====
section
/-! SUPPORT. The fields of an encoded word (30_encoding.md R101), and the bytes of a word. -/

namespace Sys2Proof

section
variable (f x y n : Nibble) (kk : Byte) (nnn : Addr12)

@[simp] theorem famField_wordNnn : famField (wordNnn f nnn) = f := by
  unfold famField wordNnn
  exact BitVec.extractLsb'_append_eq_left

@[simp] theorem nnnField_wordNnn : nnnField (wordNnn f nnn) = nnn := by
  unfold nnnField wordNnn
  exact BitVec.extractLsb'_append_eq_right

@[simp] theorem famField_wordXkk : famField (wordXkk f x kk) = f := famField_wordNnn f _

@[simp] theorem xField_wordXkk : xField (wordXkk f x kk) = x := by
  unfold xField wordXkk
  ext k hk
  simp only [BitVec.getElem_extractLsb', BitVec.getLsbD_append]
  rw [if_pos (by omega), if_neg (by omega), Nat.add_sub_cancel_left, BitVec.getLsbD_eq_getElem hk]

@[simp] theorem kkField_wordXkk : kkField (wordXkk f x kk) = kk := by
  unfold kkField wordXkk
  ext k hk
  simp only [BitVec.getElem_extractLsb', BitVec.getLsbD_append, Nat.zero_add]
  rw [if_pos (by omega), if_pos (by omega), BitVec.getLsbD_eq_getElem hk]

@[simp] theorem famField_wordXyn : famField (wordXyn f x y n) = f := famField_wordNnn f _

@[simp] theorem xField_wordXyn : xField (wordXyn f x y n) = x := xField_wordXkk f x _

@[simp] theorem yField_wordXyn : yField (wordXyn f x y n) = y := by
  unfold yField wordXyn
  ext k hk
  simp only [BitVec.getElem_extractLsb', BitVec.getLsbD_append]
  rw [if_pos (by omega), if_pos (by omega), if_neg (by omega), Nat.add_sub_cancel_left, BitVec.getLsbD_eq_getElem hk]

@[simp] theorem nField_wordXyn : nField (wordXyn f x y n) = n := by
  unfold nField wordXyn
  ext k hk
  simp only [BitVec.getElem_extractLsb', BitVec.getLsbD_append, Nat.zero_add]
  rw [if_pos (by omega), if_pos (by omega), if_pos (by omega), BitVec.getLsbD_eq_getElem hk]

end

/-- A field whose value the decoder matched on is that literal. -/
theorem eq_ofNat_of_toNat {n k : Nat} {a : BitVec n} (h : a.toNat = k) : a = BitVec.ofNat n k := by
  subst h
  simp

/-- A word is its fields put together. -/
theorem wordNnn_fields (w : Word) : wordNnn (famField w) (nnnField w) = w := by
  unfold wordNnn famField nnnField
  ext k hk
  rw [BitVec.getElem_append]
  split
  · simp [BitVec.getLsbD_eq_getElem hk]
  · rw [BitVec.getElem_extractLsb', show 12 + (k - 12) = k by omega, BitVec.getLsbD_eq_getElem hk]

theorem wordXkk_fields (w : Word) : wordXkk (famField w) (xField w) (kkField w) = w := by
  rw [wordXkk, show (xField w ++ kkField w : BitVec 12) = nnnField w from ?_]
  · exact wordNnn_fields w
  · unfold xField kkField nnnField
    ext k hk
    rw [BitVec.getElem_append]
    split
    · simp
    · rw [BitVec.getElem_extractLsb', BitVec.getElem_extractLsb', show 8 + (k - 8) = 0 + k by omega]

theorem wordXyn_fields (w : Word) : wordXyn (famField w) (xField w) (yField w) (nField w) = w := by
  rw [wordXyn, show (yField w ++ nField w : BitVec 8) = kkField w from ?_]
  · exact wordXkk_fields w
  · unfold yField nField kkField
    ext k hk
    rw [BitVec.getElem_append]
    split
    · simp
    · rw [BitVec.getElem_extractLsb', BitVec.getElem_extractLsb', show 4 + (k - 4) = 0 + k by omega]

/-- The bytes of a word put together are the word (20_memory.md R75). -/
theorem wordOfBytes_bytes (w : Word) : wordOfBytes (w.extractLsb' 8 8) (w.extractLsb' 0 8) = w := by
  unfold wordOfBytes
  ext k hk
  rw [BitVec.getElem_append]
  split
  · simp [BitVec.getLsbD_eq_getElem hk]
  · rw [BitVec.getElem_extractLsb', show 8 + (k - 8) = k by omega, BitVec.getLsbD_eq_getElem hk]

/-- The value of the word two bytes make. -/
theorem wordOfBytes_toNat (hi lo : Byte) : (wordOfBytes hi lo).toNat = hi.toNat * 256 + lo.toNat := by
  unfold wordOfBytes
  rw [show (hi ++ lo : Word).toNat = hi.toNat <<< 8 ||| lo.toNat from BitVec.toNat_append .., Nat.shiftLeft_eq,
    Nat.mul_comm, ← Nat.two_pow_add_eq_or_of_lt lo.isLt]

/-- Decoding from bytes is decoding the word they hold. -/
theorem decodeBytes_bytesOfWord (w : Word) (rest : List Byte) :
    decodeBytes (bytesOfWord w ++ rest) = (decode w).map (fun ins => (ins, rest)) := by
  simp only [bytesOfWord, List.cons_append, List.nil_append, decodeBytes, wordOfBytes_bytes]
  cases decode w <;> rfl

end Sys2Proof
end

