-- ==== Sys2Proof/Laws/Memory.lean ====
section
/-! SUPPORT. Memory: a read after a write, and that every operation keeps the canonical form. -/

namespace Sys2Proof.Machine

/-! ### Rising lists -/

theorem risesFrom_cons {lo a : Nat} {x : Byte} {m : Memory} :
    Memory.risesFrom lo ((a, x) :: m) = true ↔
      lo ≤ a ∧ a < Config.memSize ∧ x ≠ Memory.resetByte a ∧ Memory.risesFrom (a + 1) m = true := by
  simp [Memory.risesFrom, and_assoc]

theorem risesFrom_of_le {lo lo' : Nat} (hle : lo' ≤ lo) {m : Memory} (h : Memory.risesFrom lo m = true) :
    Memory.risesFrom lo' m = true := by
  cases m with
  | nil => rfl
  | cons c m =>
    rw [risesFrom_cons] at h ⊢
    exact ⟨hle.trans h.1, h.2⟩

/-- An address below the list reads what reset leaves. -/
theorem read_of_risesFrom {lo : Nat} {m : Memory} (h : Memory.risesFrom lo m = true) {a : Nat} (ha : a < lo) :
    Memory.read m a = Memory.resetByte a := by
  induction m generalizing lo with
  | nil => rfl
  | cons c m ih =>
    rw [risesFrom_cons] at h
    simp only [Memory.read]
    rw [if_neg (by omega), ih h.2.2.2 (by omega)]

/-! ### One write -/

theorem insert_risesFrom {lo : Nat} {m : Memory} (h : Memory.risesFrom lo m = true) {a : Nat} (ha : lo ≤ a)
    (hs : a < Config.memSize) (x : Byte) : Memory.risesFrom lo (Memory.insert m a x) = true := by
  induction m generalizing lo with
  | nil =>
    simp only [Memory.insert]
    split
    · rfl
    · rw [risesFrom_cons]; exact ⟨ha, hs, ‹_›, rfl⟩
  | cons c m ih =>
    obtain ⟨b, w⟩ := c
    have hc := risesFrom_cons.mp h
    simp only [Memory.insert]
    split
    · rename_i hab
      split
      · exact h
      · rw [risesFrom_cons]
        exact ⟨ha, hs, ‹_›, risesFrom_cons.mpr ⟨hab, hc.2⟩⟩
    · split
      · rename_i hab
        subst hab
        split
        · exact risesFrom_of_le (by omega) hc.2.2.2
        · exact risesFrom_cons.mpr ⟨ha, hs, ‹_›, hc.2.2.2⟩
      · exact risesFrom_cons.mpr ⟨hc.1, hc.2.1, hc.2.2.1, ih hc.2.2.2 (by omega)⟩

theorem read_insert_same {lo : Nat} {m : Memory} (h : Memory.risesFrom lo m = true) (a : Nat) (x : Byte) :
    Memory.read (Memory.insert m a x) a = x := by
  induction m generalizing lo with
  | nil =>
    simp only [Memory.insert]
    split
    · exact (‹x = _› ▸ rfl)
    · simp [Memory.read]
  | cons c m ih =>
    obtain ⟨b, w⟩ := c
    have hc := risesFrom_cons.mp h
    simp only [Memory.insert]
    split
    · rename_i hab
      split
      · simp only [Memory.read]
        rw [if_neg (by omega), read_of_risesFrom hc.2.2.2 (by omega)]
        exact Eq.symm ‹_›
      · simp [Memory.read]
    · split
      · rename_i hab
        split
        · rw [read_of_risesFrom hc.2.2.2 (by omega)]
          exact Eq.symm ‹_›
        · simp [Memory.read]
      · simp only [Memory.read]
        rw [if_neg ‹_›, ih hc.2.2.2]

theorem read_insert_ne (m : Memory) {a c : Nat} (x : Byte) (hne : c ≠ a) :
    Memory.read (Memory.insert m a x) c = Memory.read m c := by
  induction m with
  | nil =>
    simp only [Memory.insert]
    split
    · rfl
    · simp [Memory.read, hne]
  | cons d m ih =>
    obtain ⟨b, w⟩ := d
    simp only [Memory.insert]
    split
    · split
      · rfl
      · simp [Memory.read, hne]
    · split
      · rename_i hab
        subst hab
        split <;> simp [Memory.read, hne]
      · simp only [Memory.read, ih]

/-- A write keeps the canonical form. -/
theorem wf_write {m : Memory} (h : Memory.wf m = true) (a : Nat) (x : Byte) :
    Memory.wf (Memory.write m a x) = true := by
  unfold Memory.write
  split
  · exact insert_risesFrom h (Nat.zero_le _) ‹_› x
  · exact h

/-- A byte reads as the value last written to it (20_memory.md R79). -/
theorem read_write_same {m : Memory} (h : Memory.wf m = true) {a : Nat} (ha : a < Config.memSize) (x : Byte) :
    Memory.read (Memory.write m a x) a = x := by
  rw [Memory.write, if_pos ha]
  exact read_insert_same h a x

/-- A write changes no other byte (R79). -/
theorem read_write_ne (m : Memory) {a c : Nat} (x : Byte) (hne : c ≠ a) :
    Memory.read (Memory.write m a x) c = Memory.read m c := by
  unfold Memory.write
  split
  · exact read_insert_ne m x hne
  · rfl

/-! ### Several writes -/

theorem wf_writeBytes {m : Memory} (h : Memory.wf m = true) (a : Nat) (bs : List Byte) :
    Memory.wf (Memory.writeBytes m a bs) = true := by
  induction bs generalizing m a with
  | nil => exact h
  | cons b bs ih => exact ih (wf_write h a b) (a + 1)

theorem read_writeBytes_outside (m : Memory) (a : Nat) (bs : List Byte) {c : Nat}
    (hc : c < a ∨ a + bs.length ≤ c) : Memory.read (Memory.writeBytes m a bs) c = Memory.read m c := by
  induction bs generalizing m a with
  | nil => rfl
  | cons b bs ih =>
    simp only [List.length_cons] at hc
    simp only [Memory.writeBytes]
    rw [ih _ _ (by omega), read_write_ne _ _ (by omega)]

theorem read_writeBytes_inside {m : Memory} (h : Memory.wf m = true) (a : Nat) (bs : List Byte)
    (hfit : a + bs.length ≤ Config.memSize) {k : Nat} (hk : k < bs.length) :
    Memory.read (Memory.writeBytes m a bs) (a + k) = bs[k] := by
  induction bs generalizing m a k with
  | nil => simp at hk
  | cons b bs ih =>
    simp only [List.length_cons] at hfit hk
    simp only [Memory.writeBytes]
    cases k with
    | zero =>
      rw [read_writeBytes_outside _ _ _ (by omega)]
      exact read_write_same h (by omega) b
    | succ k =>
      have := ih (wf_write h a b) (a + 1) (by omega) (k := k) (by omega)
      rw [show a + (k + 1) = a + 1 + k by omega, this]
      rfl

/-! ### The register block transfer -/

theorem mem_regsUpTo {x : Nibble} {k : Fin 16} : k ∈ regsUpTo x ↔ k.val ≤ x.toNat := by
  simp [regsUpTo, List.mem_filter]

theorem nodup_regsUpTo (x : Nibble) : (regsUpTo x).Nodup :=
  (List.nodup_finRange 16).filter _

theorem wf_storeRegs {m : Memory} (h : Memory.wf m = true) (base : Nat) (v : Vector Byte 16) (x : Nibble) :
    Memory.wf (storeRegs m base v x) = true := by
  unfold storeRegs
  induction regsUpTo x generalizing m with
  | nil => exact h
  | cons k ks ih => exact ih (wf_write h _ _)

theorem read_storeFold_outside (base : Nat) (v : Vector Byte 16) (ks : List (Fin 16)) (m : Memory) {c : Nat}
    (hc : ∀ k ∈ ks, c ≠ base + k.val) :
    Memory.read (ks.foldl (fun m k => Memory.write m (base + k.val) (v[k.val]'k.isLt)) m) c = Memory.read m c := by
  induction ks generalizing m with
  | nil => rfl
  | cons k ks ih =>
    simp only [List.foldl_cons]
    rw [ih _ (fun j hj => hc j (List.mem_cons_of_mem _ hj)), read_write_ne _ _ (hc k (List.mem_cons_self ..))]

theorem read_storeFold_inside (base : Nat) (v : Vector Byte 16) (ks : List (Fin 16)) (hnd : ks.Nodup) {m : Memory}
    (h : Memory.wf m = true) {k : Fin 16} (hk : k ∈ ks) (hfit : base + k.val < Config.memSize) :
    Memory.read (ks.foldl (fun m k => Memory.write m (base + k.val) (v[k.val]'k.isLt)) m) (base + k.val)
      = v[k.val]'k.isLt := by
  induction ks generalizing m with
  | nil => simp at hk
  | cons j ks ih =>
    simp only [List.foldl_cons]
    rw [List.nodup_cons] at hnd
    rcases List.mem_cons.mp hk with rfl | hk
    · rw [read_storeFold_outside base v ks _ (fun j hj heq => hnd.1 (by
        have : j = k := Fin.ext (by omega)
        exact this ▸ hj))]
      exact read_write_same h hfit _
    · exact ih hnd.2 (wf_write h _ _) hk

/-- `Fx55` stores nowhere else. -/
theorem read_storeRegs_outside (m : Memory) (base : Nat) (v : Vector Byte 16) (x : Nibble) {c : Nat}
    (hc : c < base ∨ base + x.toNat < c) : Memory.read (storeRegs m base v x) c = Memory.read m c :=
  read_storeFold_outside base v _ m (fun k hk heq => by have := mem_regsUpTo.mp hk; omega)

/-- `Fx55` stores `V[k]` at `base + k`. -/
theorem read_storeRegs_inside {m : Memory} (h : Memory.wf m = true) (base : Nat) (v : Vector Byte 16) (x : Nibble)
    (hfit : base + x.toNat < Config.memSize) (k : Fin 16) (hk : k.val ≤ x.toNat) :
    Memory.read (storeRegs m base v x) (base + k.val) = v[k.val]'k.isLt :=
  read_storeFold_inside base v _ (nodup_regsUpTo x) h (mem_regsUpTo.mpr hk) (by omega)

theorem get_loadFold (m : Memory) (base : Nat) (ks : List (Fin 16)) (v : Vector Byte 16) (k : Fin 16) :
    (ks.foldl (fun v k => v.set k.val (Memory.read m (base + k.val)) k.isLt) v)[k.val]'k.isLt
      = if k ∈ ks then Memory.read m (base + k.val) else v[k.val]'k.isLt := by
  induction ks generalizing v with
  | nil => simp
  | cons j ks ih =>
    simp only [List.foldl_cons, List.mem_cons]
    rw [ih]
    by_cases hk : k ∈ ks
    · simp [hk]
    · by_cases hj : k = j
      · subst hj; simp [hk]
      · have : j.val ≠ k.val := fun h => hj (Fin.ext h.symm)
        simp [hk, hj, Vector.getElem_set_ne _ _ this]

/-- `Fx65` loads `V[0]` to `V[x]` and keeps the rest. -/
theorem get_loadRegs (m : Memory) (base : Nat) (v : Vector Byte 16) (x : Nibble) (k : Fin 16) :
    (loadRegs m base v x)[k.val]'k.isLt
      = if k.val ≤ x.toNat then Memory.read m (base + k.val) else v[k.val]'k.isLt := by
  rw [loadRegs, get_loadFold]
  simp only [mem_regsUpTo]

end Sys2Proof.Machine
end

