-- ==== Sys2Proof/Laws/State.lean ====
section
/-! SUPPORT. What each named update of the state leaves in each field: one lemma per field per update, true by
unfolding, so that no proof unfolds a record update. -/

namespace Sys2Proof.Machine

/-! ### `writeV` -/

section
variable (s : State)

@[simp] theorem writeV_mem (x : Nibble) (b : Byte) : (writeV s x b).mem = s.mem := rfl
@[simp] theorem writeV_v (x : Nibble) (b : Byte) : (writeV s x b).v = s.v.set x.toNat b x.isLt := rfl
@[simp] theorem writeV_i (x : Nibble) (b : Byte) : (writeV s x b).i = s.i := rfl
@[simp] theorem writeV_pc (x : Nibble) (b : Byte) : (writeV s x b).pc = s.pc := rfl
@[simp] theorem writeV_stack (x : Nibble) (b : Byte) : (writeV s x b).stack = s.stack := rfl
@[simp] theorem writeV_sp (x : Nibble) (b : Byte) : (writeV s x b).sp = s.sp := rfl
@[simp] theorem writeV_dt (x : Nibble) (b : Byte) : (writeV s x b).dt = s.dt := rfl
@[simp] theorem writeV_st (x : Nibble) (b : Byte) : (writeV s x b).st = s.st := rfl
@[simp] theorem writeV_keys (x : Nibble) (b : Byte) : (writeV s x b).keys = s.keys := rfl
@[simp] theorem writeV_gfx (x : Nibble) (b : Byte) : (writeV s x b).gfx = s.gfx := rfl
@[simp] theorem writeV_draw (x : Nibble) (b : Byte) : (writeV s x b).draw = s.draw := rfl
@[simp] theorem writeV_fault (x : Nibble) (b : Byte) : (writeV s x b).fault = s.fault := rfl
@[simp] theorem writeV_draws (x : Nibble) (b : Byte) : (writeV s x b).draws = s.draws := rfl

end

/-! ### `setVF` -/

section
variable (s : State)

@[simp] theorem setVF_mem (b : Byte) : (setVF s b).mem = s.mem := rfl
@[simp] theorem setVF_v (b : Byte) : (setVF s b).v = s.v.set 15 b (by decide) := rfl
@[simp] theorem setVF_i (b : Byte) : (setVF s b).i = s.i := rfl
@[simp] theorem setVF_pc (b : Byte) : (setVF s b).pc = s.pc := rfl
@[simp] theorem setVF_stack (b : Byte) : (setVF s b).stack = s.stack := rfl
@[simp] theorem setVF_sp (b : Byte) : (setVF s b).sp = s.sp := rfl
@[simp] theorem setVF_dt (b : Byte) : (setVF s b).dt = s.dt := rfl
@[simp] theorem setVF_st (b : Byte) : (setVF s b).st = s.st := rfl
@[simp] theorem setVF_keys (b : Byte) : (setVF s b).keys = s.keys := rfl
@[simp] theorem setVF_gfx (b : Byte) : (setVF s b).gfx = s.gfx := rfl
@[simp] theorem setVF_draw (b : Byte) : (setVF s b).draw = s.draw := rfl
@[simp] theorem setVF_fault (b : Byte) : (setVF s b).fault = s.fault := rfl
@[simp] theorem setVF_draws (b : Byte) : (setVF s b).draws = s.draws := rfl

end

/-! ### `setI` -/

section
variable (s : State)

@[simp] theorem setI_mem (a : Word) : (setI s a).mem = s.mem := rfl
@[simp] theorem setI_v (a : Word) : (setI s a).v = s.v := rfl
@[simp] theorem setI_i (a : Word) : (setI s a).i = a := rfl
@[simp] theorem setI_pc (a : Word) : (setI s a).pc = s.pc := rfl
@[simp] theorem setI_stack (a : Word) : (setI s a).stack = s.stack := rfl
@[simp] theorem setI_sp (a : Word) : (setI s a).sp = s.sp := rfl
@[simp] theorem setI_dt (a : Word) : (setI s a).dt = s.dt := rfl
@[simp] theorem setI_st (a : Word) : (setI s a).st = s.st := rfl
@[simp] theorem setI_keys (a : Word) : (setI s a).keys = s.keys := rfl
@[simp] theorem setI_gfx (a : Word) : (setI s a).gfx = s.gfx := rfl
@[simp] theorem setI_draw (a : Word) : (setI s a).draw = s.draw := rfl
@[simp] theorem setI_fault (a : Word) : (setI s a).fault = s.fault := rfl
@[simp] theorem setI_draws (a : Word) : (setI s a).draws = s.draws := rfl

end

/-! ### `setDT` -/

section
variable (s : State)

@[simp] theorem setDT_mem (b : Byte) : (setDT s b).mem = s.mem := rfl
@[simp] theorem setDT_v (b : Byte) : (setDT s b).v = s.v := rfl
@[simp] theorem setDT_i (b : Byte) : (setDT s b).i = s.i := rfl
@[simp] theorem setDT_pc (b : Byte) : (setDT s b).pc = s.pc := rfl
@[simp] theorem setDT_stack (b : Byte) : (setDT s b).stack = s.stack := rfl
@[simp] theorem setDT_sp (b : Byte) : (setDT s b).sp = s.sp := rfl
@[simp] theorem setDT_dt (b : Byte) : (setDT s b).dt = b := rfl
@[simp] theorem setDT_st (b : Byte) : (setDT s b).st = s.st := rfl
@[simp] theorem setDT_keys (b : Byte) : (setDT s b).keys = s.keys := rfl
@[simp] theorem setDT_gfx (b : Byte) : (setDT s b).gfx = s.gfx := rfl
@[simp] theorem setDT_draw (b : Byte) : (setDT s b).draw = s.draw := rfl
@[simp] theorem setDT_fault (b : Byte) : (setDT s b).fault = s.fault := rfl
@[simp] theorem setDT_draws (b : Byte) : (setDT s b).draws = s.draws := rfl

end

/-! ### `setST` -/

section
variable (s : State)

@[simp] theorem setST_mem (b : Byte) : (setST s b).mem = s.mem := rfl
@[simp] theorem setST_v (b : Byte) : (setST s b).v = s.v := rfl
@[simp] theorem setST_i (b : Byte) : (setST s b).i = s.i := rfl
@[simp] theorem setST_pc (b : Byte) : (setST s b).pc = s.pc := rfl
@[simp] theorem setST_stack (b : Byte) : (setST s b).stack = s.stack := rfl
@[simp] theorem setST_sp (b : Byte) : (setST s b).sp = s.sp := rfl
@[simp] theorem setST_dt (b : Byte) : (setST s b).dt = s.dt := rfl
@[simp] theorem setST_st (b : Byte) : (setST s b).st = b := rfl
@[simp] theorem setST_keys (b : Byte) : (setST s b).keys = s.keys := rfl
@[simp] theorem setST_gfx (b : Byte) : (setST s b).gfx = s.gfx := rfl
@[simp] theorem setST_draw (b : Byte) : (setST s b).draw = s.draw := rfl
@[simp] theorem setST_fault (b : Byte) : (setST s b).fault = s.fault := rfl
@[simp] theorem setST_draws (b : Byte) : (setST s b).draws = s.draws := rfl

end

/-! ### `advance` -/

section
variable (s : State)

@[simp] theorem advance_mem : (advance s).mem = s.mem := rfl
@[simp] theorem advance_v : (advance s).v = s.v := rfl
@[simp] theorem advance_i : (advance s).i = s.i := rfl
@[simp] theorem advance_pc : (advance s).pc = s.pc + 2 := rfl
@[simp] theorem advance_stack : (advance s).stack = s.stack := rfl
@[simp] theorem advance_sp : (advance s).sp = s.sp := rfl
@[simp] theorem advance_dt : (advance s).dt = s.dt := rfl
@[simp] theorem advance_st : (advance s).st = s.st := rfl
@[simp] theorem advance_keys : (advance s).keys = s.keys := rfl
@[simp] theorem advance_gfx : (advance s).gfx = s.gfx := rfl
@[simp] theorem advance_draw : (advance s).draw = s.draw := rfl
@[simp] theorem advance_fault : (advance s).fault = s.fault := rfl
@[simp] theorem advance_draws : (advance s).draws = s.draws := rfl

end

/-! ### `skipIf` -/

section
variable (s : State)

@[simp] theorem skipIf_mem (c : Bool) : (skipIf c s).mem = s.mem := rfl
@[simp] theorem skipIf_v (c : Bool) : (skipIf c s).v = s.v := rfl
@[simp] theorem skipIf_i (c : Bool) : (skipIf c s).i = s.i := rfl
@[simp] theorem skipIf_pc (c : Bool) : (skipIf c s).pc = if c then s.pc + 4 else s.pc + 2 := rfl
@[simp] theorem skipIf_stack (c : Bool) : (skipIf c s).stack = s.stack := rfl
@[simp] theorem skipIf_sp (c : Bool) : (skipIf c s).sp = s.sp := rfl
@[simp] theorem skipIf_dt (c : Bool) : (skipIf c s).dt = s.dt := rfl
@[simp] theorem skipIf_st (c : Bool) : (skipIf c s).st = s.st := rfl
@[simp] theorem skipIf_keys (c : Bool) : (skipIf c s).keys = s.keys := rfl
@[simp] theorem skipIf_gfx (c : Bool) : (skipIf c s).gfx = s.gfx := rfl
@[simp] theorem skipIf_draw (c : Bool) : (skipIf c s).draw = s.draw := rfl
@[simp] theorem skipIf_fault (c : Bool) : (skipIf c s).fault = s.fault := rfl
@[simp] theorem skipIf_draws (c : Bool) : (skipIf c s).draws = s.draws := rfl

end

/-! ### `jump` -/

section
variable (s : State)

@[simp] theorem jump_mem (a : Word) : (jump s a).mem = s.mem := rfl
@[simp] theorem jump_v (a : Word) : (jump s a).v = s.v := rfl
@[simp] theorem jump_i (a : Word) : (jump s a).i = s.i := rfl
@[simp] theorem jump_pc (a : Word) : (jump s a).pc = a := rfl
@[simp] theorem jump_stack (a : Word) : (jump s a).stack = s.stack := rfl
@[simp] theorem jump_sp (a : Word) : (jump s a).sp = s.sp := rfl
@[simp] theorem jump_dt (a : Word) : (jump s a).dt = s.dt := rfl
@[simp] theorem jump_st (a : Word) : (jump s a).st = s.st := rfl
@[simp] theorem jump_keys (a : Word) : (jump s a).keys = s.keys := rfl
@[simp] theorem jump_gfx (a : Word) : (jump s a).gfx = s.gfx := rfl
@[simp] theorem jump_draw (a : Word) : (jump s a).draw = s.draw := rfl
@[simp] theorem jump_fault (a : Word) : (jump s a).fault = s.fault := rfl
@[simp] theorem jump_draws (a : Word) : (jump s a).draws = s.draws := rfl

end

/-! ### `push` -/

section
variable (s : State)

@[simp] theorem push_mem (a : Word) (h : s.sp.val < 16) : (push s a h).mem = s.mem := rfl
@[simp] theorem push_v (a : Word) (h : s.sp.val < 16) : (push s a h).v = s.v := rfl
@[simp] theorem push_i (a : Word) (h : s.sp.val < 16) : (push s a h).i = s.i := rfl
@[simp] theorem push_pc (a : Word) (h : s.sp.val < 16) : (push s a h).pc = s.pc := rfl
@[simp] theorem push_stack (a : Word) (h : s.sp.val < 16) : (push s a h).stack = s.stack.set s.sp.val a h := rfl
@[simp] theorem push_sp (a : Word) (h : s.sp.val < 16) : (push s a h).sp = ⟨s.sp.val + 1, by omega⟩ := rfl
@[simp] theorem push_dt (a : Word) (h : s.sp.val < 16) : (push s a h).dt = s.dt := rfl
@[simp] theorem push_st (a : Word) (h : s.sp.val < 16) : (push s a h).st = s.st := rfl
@[simp] theorem push_keys (a : Word) (h : s.sp.val < 16) : (push s a h).keys = s.keys := rfl
@[simp] theorem push_gfx (a : Word) (h : s.sp.val < 16) : (push s a h).gfx = s.gfx := rfl
@[simp] theorem push_draw (a : Word) (h : s.sp.val < 16) : (push s a h).draw = s.draw := rfl
@[simp] theorem push_fault (a : Word) (h : s.sp.val < 16) : (push s a h).fault = s.fault := rfl
@[simp] theorem push_draws (a : Word) (h : s.sp.val < 16) : (push s a h).draws = s.draws := rfl

end

/-! ### `pop` -/

section
variable (s : State)

@[simp] theorem pop_mem : (pop s).mem = s.mem := rfl
@[simp] theorem pop_v : (pop s).v = s.v := rfl
@[simp] theorem pop_i : (pop s).i = s.i := rfl
@[simp] theorem pop_pc : (pop s).pc = s.pc := rfl
@[simp] theorem pop_stack : (pop s).stack = s.stack := rfl
@[simp] theorem pop_sp : (pop s).sp = ⟨s.sp.val - 1, by omega⟩ := rfl
@[simp] theorem pop_dt : (pop s).dt = s.dt := rfl
@[simp] theorem pop_st : (pop s).st = s.st := rfl
@[simp] theorem pop_keys : (pop s).keys = s.keys := rfl
@[simp] theorem pop_gfx : (pop s).gfx = s.gfx := rfl
@[simp] theorem pop_draw : (pop s).draw = s.draw := rfl
@[simp] theorem pop_fault : (pop s).fault = s.fault := rfl
@[simp] theorem pop_draws : (pop s).draws = s.draws := rfl

end

/-! ### `raise` -/

section
variable (s : State)

@[simp] theorem raise_mem (r : FaultRecord) : (raise s r).mem = s.mem := rfl
@[simp] theorem raise_v (r : FaultRecord) : (raise s r).v = s.v := rfl
@[simp] theorem raise_i (r : FaultRecord) : (raise s r).i = s.i := rfl
@[simp] theorem raise_pc (r : FaultRecord) : (raise s r).pc = s.pc := rfl
@[simp] theorem raise_stack (r : FaultRecord) : (raise s r).stack = s.stack := rfl
@[simp] theorem raise_sp (r : FaultRecord) : (raise s r).sp = s.sp := rfl
@[simp] theorem raise_dt (r : FaultRecord) : (raise s r).dt = s.dt := rfl
@[simp] theorem raise_st (r : FaultRecord) : (raise s r).st = s.st := rfl
@[simp] theorem raise_keys (r : FaultRecord) : (raise s r).keys = s.keys := rfl
@[simp] theorem raise_gfx (r : FaultRecord) : (raise s r).gfx = s.gfx := rfl
@[simp] theorem raise_draw (r : FaultRecord) : (raise s r).draw = s.draw := rfl
@[simp] theorem raise_fault (r : FaultRecord) : (raise s r).fault = some r := rfl
@[simp] theorem raise_draws (r : FaultRecord) : (raise s r).draws = s.draws := rfl

end

/-! ### `clearDraw` -/

section
variable (s : State)

@[simp] theorem clearDraw_mem : (clearDraw s).mem = s.mem := rfl
@[simp] theorem clearDraw_v : (clearDraw s).v = s.v := rfl
@[simp] theorem clearDraw_i : (clearDraw s).i = s.i := rfl
@[simp] theorem clearDraw_pc : (clearDraw s).pc = s.pc := rfl
@[simp] theorem clearDraw_stack : (clearDraw s).stack = s.stack := rfl
@[simp] theorem clearDraw_sp : (clearDraw s).sp = s.sp := rfl
@[simp] theorem clearDraw_dt : (clearDraw s).dt = s.dt := rfl
@[simp] theorem clearDraw_st : (clearDraw s).st = s.st := rfl
@[simp] theorem clearDraw_keys : (clearDraw s).keys = s.keys := rfl
@[simp] theorem clearDraw_gfx : (clearDraw s).gfx = s.gfx := rfl
@[simp] theorem clearDraw_draw : (clearDraw s).draw = false := rfl
@[simp] theorem clearDraw_fault : (clearDraw s).fault = s.fault := rfl
@[simp] theorem clearDraw_draws : (clearDraw s).draws = s.draws := rfl

end

/-! ### `tickTimers` -/

section
variable (s : State)

@[simp] theorem tickTimers_mem : (tickTimers s).mem = s.mem := rfl
@[simp] theorem tickTimers_v : (tickTimers s).v = s.v := rfl
@[simp] theorem tickTimers_i : (tickTimers s).i = s.i := rfl
@[simp] theorem tickTimers_pc : (tickTimers s).pc = s.pc := rfl
@[simp] theorem tickTimers_stack : (tickTimers s).stack = s.stack := rfl
@[simp] theorem tickTimers_sp : (tickTimers s).sp = s.sp := rfl
@[simp] theorem tickTimers_dt : (tickTimers s).dt = decrement s.dt := rfl
@[simp] theorem tickTimers_st : (tickTimers s).st = decrement s.st := rfl
@[simp] theorem tickTimers_keys : (tickTimers s).keys = s.keys := rfl
@[simp] theorem tickTimers_gfx : (tickTimers s).gfx = s.gfx := rfl
@[simp] theorem tickTimers_draw : (tickTimers s).draw = s.draw := rfl
@[simp] theorem tickTimers_fault : (tickTimers s).fault = s.fault := rfl
@[simp] theorem tickTimers_draws : (tickTimers s).draws = s.draws := rfl

end

/-! ### `setKeys` -/

section
variable (s : State)

@[simp] theorem setKeys_mem (k : Vector Bool 16) : (setKeys k s).mem = s.mem := rfl
@[simp] theorem setKeys_v (k : Vector Bool 16) : (setKeys k s).v = s.v := rfl
@[simp] theorem setKeys_i (k : Vector Bool 16) : (setKeys k s).i = s.i := rfl
@[simp] theorem setKeys_pc (k : Vector Bool 16) : (setKeys k s).pc = s.pc := rfl
@[simp] theorem setKeys_stack (k : Vector Bool 16) : (setKeys k s).stack = s.stack := rfl
@[simp] theorem setKeys_sp (k : Vector Bool 16) : (setKeys k s).sp = s.sp := rfl
@[simp] theorem setKeys_dt (k : Vector Bool 16) : (setKeys k s).dt = s.dt := rfl
@[simp] theorem setKeys_st (k : Vector Bool 16) : (setKeys k s).st = s.st := rfl
@[simp] theorem setKeys_keys (k : Vector Bool 16) : (setKeys k s).keys = k := rfl
@[simp] theorem setKeys_gfx (k : Vector Bool 16) : (setKeys k s).gfx = s.gfx := rfl
@[simp] theorem setKeys_draw (k : Vector Bool 16) : (setKeys k s).draw = s.draw := rfl
@[simp] theorem setKeys_fault (k : Vector Bool 16) : (setKeys k s).fault = s.fault := rfl
@[simp] theorem setKeys_draws (k : Vector Bool 16) : (setKeys k s).draws = s.draws := rfl

end

/-! ### `rndWith` -/

section
variable (s : State)

@[simp] theorem rndWith_mem (r : Byte) (x : Nibble) (kk : Byte) : (rndWith r x kk s).mem = s.mem := rfl
@[simp] theorem rndWith_v (r : Byte) (x : Nibble) (kk : Byte) : (rndWith r x kk s).v = s.v.set x.toNat (r &&& kk) x.isLt := rfl
@[simp] theorem rndWith_i (r : Byte) (x : Nibble) (kk : Byte) : (rndWith r x kk s).i = s.i := rfl
@[simp] theorem rndWith_pc (r : Byte) (x : Nibble) (kk : Byte) : (rndWith r x kk s).pc = s.pc + 2 := rfl
@[simp] theorem rndWith_stack (r : Byte) (x : Nibble) (kk : Byte) : (rndWith r x kk s).stack = s.stack := rfl
@[simp] theorem rndWith_sp (r : Byte) (x : Nibble) (kk : Byte) : (rndWith r x kk s).sp = s.sp := rfl
@[simp] theorem rndWith_dt (r : Byte) (x : Nibble) (kk : Byte) : (rndWith r x kk s).dt = s.dt := rfl
@[simp] theorem rndWith_st (r : Byte) (x : Nibble) (kk : Byte) : (rndWith r x kk s).st = s.st := rfl
@[simp] theorem rndWith_keys (r : Byte) (x : Nibble) (kk : Byte) : (rndWith r x kk s).keys = s.keys := rfl
@[simp] theorem rndWith_gfx (r : Byte) (x : Nibble) (kk : Byte) : (rndWith r x kk s).gfx = s.gfx := rfl
@[simp] theorem rndWith_draw (r : Byte) (x : Nibble) (kk : Byte) : (rndWith r x kk s).draw = s.draw := rfl
@[simp] theorem rndWith_fault (r : Byte) (x : Nibble) (kk : Byte) : (rndWith r x kk s).fault = s.fault := rfl
@[simp] theorem rndWith_draws (r : Byte) (x : Nibble) (kk : Byte) : (rndWith r x kk s).draws = s.draws + 1 := rfl

end

/-! ### `withFetchWord` -/

section
variable (s : State)

@[simp] theorem withFetchWord_mem (nbits w : Nat) : (s.withFetchWord nbits w).mem = Memory.writeBytes s.mem s.pc.toNat (bytesOfWord (BitVec.ofNat 16 (w % 2 ^ nbits))) := rfl
@[simp] theorem withFetchWord_v (nbits w : Nat) : (s.withFetchWord nbits w).v = s.v := rfl
@[simp] theorem withFetchWord_i (nbits w : Nat) : (s.withFetchWord nbits w).i = s.i := rfl
@[simp] theorem withFetchWord_pc (nbits w : Nat) : (s.withFetchWord nbits w).pc = s.pc := rfl
@[simp] theorem withFetchWord_stack (nbits w : Nat) : (s.withFetchWord nbits w).stack = s.stack := rfl
@[simp] theorem withFetchWord_sp (nbits w : Nat) : (s.withFetchWord nbits w).sp = s.sp := rfl
@[simp] theorem withFetchWord_dt (nbits w : Nat) : (s.withFetchWord nbits w).dt = s.dt := rfl
@[simp] theorem withFetchWord_st (nbits w : Nat) : (s.withFetchWord nbits w).st = s.st := rfl
@[simp] theorem withFetchWord_keys (nbits w : Nat) : (s.withFetchWord nbits w).keys = s.keys := rfl
@[simp] theorem withFetchWord_gfx (nbits w : Nat) : (s.withFetchWord nbits w).gfx = s.gfx := rfl
@[simp] theorem withFetchWord_draw (nbits w : Nat) : (s.withFetchWord nbits w).draw = s.draw := rfl
@[simp] theorem withFetchWord_fault (nbits w : Nat) : (s.withFetchWord nbits w).fault = s.fault := rfl
@[simp] theorem withFetchWord_draws (nbits w : Nat) : (s.withFetchWord nbits w).draws = s.draws := rfl

end

end Sys2Proof.Machine
end

