-- ==== Sys2Proof/Laws/Ops.lean ====
section
/-! SUPPORT. What each shared operation can do, said once. -/

namespace Sys2Proof.Machine

/-! ### Registers -/

theorem readV_writeV (s : State) (x y : Nibble) (b : Byte) :
    readV (writeV s x b) y = if y = x then b else readV s y := by
  simp only [readV, writeV_v, Vector.getElem_set]
  by_cases h : y = x
  · simp [h]
  · have : x.toNat ≠ y.toNat := fun e => h (BitVec.eq_of_toNat_eq e.symm)
    simp [h, this]

@[simp] theorem readV_writeV_same (s : State) (x : Nibble) (b : Byte) : readV (writeV s x b) x = b := by
  simp [readV_writeV]

theorem readV_writeV_ne (s : State) {x y : Nibble} (b : Byte) (h : y ≠ x) : readV (writeV s x b) y = readV s y := by
  simp [readV_writeV, h]

theorem readV_setVF (s : State) (b : Byte) (y : Nibble) : readV (setVF s b) y = if y = 0xF#4 then b else readV s y :=
  readV_writeV s 0xF y b

/-- A register read depends on the registers alone. -/
theorem readV_congr {s t : State} (h : s.v = t.v) (x : Nibble) : readV s x = readV t x := by simp [readV, h]

@[simp] theorem readV_advance (s : State) (x : Nibble) : readV (advance s) x = readV s x := rfl
@[simp] theorem readV_clearDraw (s : State) (x : Nibble) : readV (clearDraw s) x = readV s x := rfl
@[simp] theorem readV_raise (s : State) (r : FaultRecord) (x : Nibble) : readV (raise s r) x = readV s x := rfl
@[simp] theorem readV_tickTimers (s : State) (x : Nibble) : readV (tickTimers s) x = readV s x := rfl

/-- A byte read depends on memory alone. -/
theorem readByte_congr {s t : State} (h : s.mem = t.mem) (a : Nat) : readByte s a = readByte t a := by
  simp [readByte, h]

@[simp] theorem readByte_clearDraw (s : State) (a : Nat) : readByte (clearDraw s) a = readByte s a := rfl

/-! ### Pixels -/

theorem pixelOf_setPixel (g : Pixels) (c c' : Fin 64) (r r' : Fin 32) (b : Bool) :
    pixelOf (setPixel g c r b) c' r' = if c' = c ∧ r' = r then b else pixelOf g c' r' := by
  simp only [pixelOf, setPixel, Vector.getElem_set]
  by_cases hc : c' = c
  · subst hc
    by_cases hr : r' = r
    · simp [hr]
    · have : r.val ≠ r'.val := fun e => hr (Fin.ext e.symm)
      simp [hr, this]
  · have : c.val ≠ c'.val := fun e => hc (Fin.ext e.symm)
    simp [hc, this]

/-- Two buffers with equal cells are equal. -/
theorem pixels_ext {g g' : Pixels} (h : ∀ c r, pixelOf g c r = pixelOf g' c r) : g = g' := by
  apply Vector.ext
  intro c hc
  apply Vector.ext
  intro r hr
  exact h ⟨c, hc⟩ ⟨r, hr⟩

@[simp] theorem pixelOf_blankPixels (c : Fin 64) (r : Fin 32) : pixelOf blankPixels c r = false := by
  simp [pixelOf, blankPixels]

/-! ### Checked accesses -/

theorem beyondMemory_iff {base len : Nat} : beyondMemory base len = true ↔ 0 < len ∧ 0xFFF < base + len - 1 := by
  rw [beyondMemory, decide_eq_true_iff, Config.memSize]
  omega

theorem beyondMemory_eq_false {base len : Nat} : beyondMemory base len = false ↔ len = 0 ∨ base + len - 1 ≤ 0xFFF := by
  rw [← Bool.not_eq_true, beyondMemory_iff]
  omega

theorem accessing_of_inBounds {s : State} {word : Word} {kind : AccessKind} {len : Nat} {after : State}
    (h : beyondMemory s.i.toNat len = false) : accessing s word kind len after = .next after := by
  simp [accessing, h]

theorem accessing_of_beyond {s : State} {word : Word} {kind : AccessKind} {len : Nat} {after : State}
    (h : beyondMemory s.i.toNat len = true) :
    accessing s word kind len after = .next (raise s (boundsRecord s.pc (some word) kind s.i.toNat)) := by
  simp [accessing, h]

/-- A checked access answers the fault's state or the given one. -/
theorem accessing_cases {s t : State} {word : Word} {kind : AccessKind} {len : Nat} {after : State}
    (h : accessing s word kind len after = .next t) :
    (beyondMemory s.i.toNat len = true ∧ t = raise s (boundsRecord s.pc (some word) kind s.i.toNat)) ∨
    (beyondMemory s.i.toNat len = false ∧ t = after) := by
  unfold accessing at h
  split at h <;> rename_i hb <;> cases h
  · exact .inl ⟨hb, rfl⟩
  · exact .inr ⟨by simpa using hb, rfl⟩

/-! ### Fetch -/

theorem fetch_of_lt {s : State} (h : s.pc.toNat < 0xFFF) :
    fetch s = .ok (wordOfBytes (readByte s s.pc.toNat) (readByte s (s.pc.toNat + 1))) := by
  rw [fetch, if_neg (by simp only [Config.memSize]; omega)]

theorem fetch_of_ge {s : State} (h : 0xFFF ≤ s.pc.toNat) :
    fetch s = .error (boundsRecord s.pc none .fetch s.pc.toNat) := by
  rw [fetch, if_pos (by simp only [Config.memSize]; omega)]

theorem fetch_ok {s : State} {w : Word} (h : fetch s = .ok w) :
    s.pc.toNat < 0xFFF ∧ w = wordOfBytes (readByte s s.pc.toNat) (readByte s (s.pc.toNat + 1)) := by
  by_cases hlt : s.pc.toNat < 0xFFF
  · rw [fetch_of_lt hlt] at h; exact ⟨hlt, by cases h; rfl⟩
  · rw [fetch_of_ge (by omega)] at h; cases h

@[simp] theorem fetch_clearDraw (s : State) : fetch (clearDraw s) = fetch s := rfl

/-! ### Timers -/

theorem decrement_toNat (t : Byte) : (decrement t).toNat = t.toNat - 1 := by
  unfold decrement
  split
  · simp_all
  · rename_i h
    have : t.toNat ≠ 0 := fun e => h (BitVec.eq_of_toNat_eq e)
    rw [BitVec.toNat_sub, show (1 : Byte).toNat = 1 from rfl]
    have := t.isLt
    omega

/-! ### Keys -/

/-- `firstKey` answers the lowest pressed key (R261). -/
theorem firstKey_some {keys : Vector Bool 16} {k : Fin 16} :
    firstKey keys = some k ↔ keys[k.val]'k.isLt = true ∧ ∀ j : Fin 16, j < k → keys[j.val]'j.isLt = false := by
  unfold firstKey
  constructor
  · intro h
    rw [List.find?_eq_some_iff_getElem] at h
    obtain ⟨hk, n, hn, hget, hlow⟩ := h
    refine ⟨hk, fun j hj => ?_⟩
    have hnk : n = k.val := by simpa [List.getElem_finRange] using congrArg Fin.val hget
    have := hlow j.val (by omega)
    simpa [List.getElem_finRange] using this
  · rintro ⟨hk, hlow⟩
    rw [List.find?_eq_some_iff_getElem]
    refine ⟨hk, k.val, by simp, by simp [List.getElem_finRange], fun j hj => ?_⟩
    have := hlow ⟨j, by omega⟩ hj
    simpa [List.getElem_finRange] using this

theorem firstKey_none {keys : Vector Bool 16} :
    firstKey keys = none ↔ ∀ k : Fin 16, keys[k.val]'k.isLt = false := by
  simp [firstKey, List.find?_eq_none]

end Sys2Proof.Machine
end

