-- ==== Sys2Proof/Laws/Draw.lean ====
section
/-! SUPPORT. What one set sprite bit, and one sprite row, does to the pixel buffer and the collision flag
(45_family_D_draw.md R230 to R234). -/

namespace Sys2Proof.Machine

/-- One set sprite bit toggles its own pixel, if that is inside the buffer, and no other. -/
theorem plotBit_pixel (acc : Pixels × Bool) (px py : Nat) (c : Fin 64) (r : Fin 32) :
    pixelOf (plotBit acc px py).1 c r
      = (pixelOf acc.1 c r ^^ decide (px = c.val ∧ py = r.val)) := by
  unfold plotBit
  split
  · rename_i h
    simp only [pixelOf_setPixel, Fin.ext_iff]
    by_cases hc : c.val = px ∧ r.val = py
    · obtain ⟨rfl, rfl⟩ := hc
      simp
    · rw [if_neg hc]
      have : ¬(px = c.val ∧ py = r.val) := fun e => hc ⟨e.1.symm, e.2.symm⟩
      simp [this]
  · rename_i h
    have : ¬(px = c.val ∧ py = r.val) := fun e => h ⟨e.1 ▸ c.isLt, e.2 ▸ r.isLt⟩
    simp [this]

/-- One set sprite bit sets the collision flag if its pixel is inside the buffer and on; the flag is sticky. -/
theorem plotBit_hit (acc : Pixels × Bool) (px py : Nat) :
    (plotBit acc px py).2 = true ↔
      acc.2 = true ∨ ∃ (c : Fin 64) (r : Fin 32), px = c.val ∧ py = r.val ∧ pixelOf acc.1 c r = true := by
  unfold plotBit
  split
  · rename_i h
    simp only [Bool.or_eq_true]
    constructor
    · rintro (h' | h')
      · exact .inl h'
      · exact .inr ⟨⟨px, h.1⟩, ⟨py, h.2⟩, rfl, rfl, h'⟩
    · rintro (h' | ⟨c, r, rfl, rfl, h'⟩)
      · exact .inl h'
      · exact .inr h'
  · rename_i h
    constructor
    · exact .inl
    · rintro (h' | ⟨c, r, rfl, rfl, -⟩)
      · exact h'
      · exact absurd ⟨c.isLt, r.isLt⟩ h

/-- The bit of a row byte at column `c`, for a row whose first column is `ox`. -/
def rowCovers (ox : Nat) (b : Byte) (c : Nat) : Bool := decide (ox ≤ c ∧ c < ox + 8) && b.getLsbD (7 - (c - ox))

/-- The first `k` columns of a row. -/
theorem plotRow_prefix (acc : Pixels × Bool) (ox py : Nat) (b : Byte) (k : Nat) :
    let row := (List.range k).foldl (fun acc c => if b.getLsbD (7 - c) then plotBit acc (ox + c) py else acc) acc
    (∀ (c : Fin 64) (r : Fin 32), pixelOf row.1 c r
      = (pixelOf acc.1 c r ^^
          (decide (py = r.val ∧ ox ≤ c.val ∧ c.val < ox + k) && b.getLsbD (7 - (c.val - ox))))) ∧
    (row.2 = true ↔ acc.2 = true ∨ ∃ (c : Fin 64) (r : Fin 32), py = r.val ∧ ox ≤ c.val ∧ c.val < ox + k ∧
      b.getLsbD (7 - (c.val - ox)) = true ∧ pixelOf acc.1 c r = true) := by
  induction k with
  | zero =>
    refine ⟨fun c r => ?_, ?_⟩
    · have : ¬(py = r.val ∧ ox ≤ c.val ∧ c.val < ox + 0) := by omega
      simp only [this, decide_false, Bool.false_and, Bool.xor_false, List.range_zero, List.foldl_nil]
    · constructor
      · exact .inl
      · rintro (h | ⟨c, r, -, h1, h2, -⟩)
        · exact h
        · omega
  | succ k ih =>
    simp only [List.range_succ, List.foldl_append, List.foldl_cons, List.foldl_nil]
    obtain ⟨ihp, ihh⟩ := ih
    by_cases hb : b.getLsbD (7 - k) = true
    · rw [if_pos hb]
      refine ⟨fun c r => ?_, ?_⟩
      · rw [plotBit_pixel, ihp]
        by_cases hk : ox + k = c.val ∧ py = r.val
        · have h2 : py = r.val ∧ ox ≤ c.val ∧ c.val < ox + (k + 1) := by omega
          have h3 : c.val - ox = k := by omega
          simp [hk, h2, h3, hb]
        · have h1 : (py = r.val ∧ ox ≤ c.val ∧ c.val < ox + (k + 1)) ↔ (py = r.val ∧ ox ≤ c.val ∧ c.val < ox + k) := by
            omega
          simp only [hk, h1, decide_false, Bool.xor_false]
      · rw [plotBit_hit, ihh]
        constructor
        · rintro ((h | ⟨c, r, h1, h2, h3, h4⟩) | ⟨c, r, h1, h2, h3⟩)
          · exact .inl h
          · exact .inr ⟨c, r, h1, h2, by omega, h4⟩
          · rw [ihp] at h3
            have hn : ¬(py = r.val ∧ ox ≤ c.val ∧ c.val < ox + k) := by omega
            exact .inr ⟨c, r, h2, by omega, by omega, by rw [show c.val - ox = k by omega]; exact hb, by simpa [hn] using h3⟩
        · rintro (h | ⟨c, r, h1, h2, h3, h4, h5⟩)
          · exact .inl (.inl h)
          · by_cases hk : c.val < ox + k
            · exact .inl (.inr ⟨c, r, h1, h2, hk, h4, h5⟩)
            · refine .inr ⟨c, r, by omega, h1, ?_⟩
              rw [ihp]
              have hn : ¬(py = r.val ∧ ox ≤ c.val ∧ c.val < ox + k) := by omega
              simpa [hn] using h5
    · rw [if_neg hb]
      refine ⟨fun c r => ?_, ?_⟩
      · rw [ihp]
        by_cases hk : c.val - ox = k
        · simp [hk, hb]
        · have h1 : (py = r.val ∧ ox ≤ c.val ∧ c.val < ox + (k + 1)) ↔ (py = r.val ∧ ox ≤ c.val ∧ c.val < ox + k) := by
            omega
          simp only [h1]
      · rw [ihh]
        constructor
        · rintro (h | ⟨c, r, h1, h2, h3, h4⟩)
          · exact .inl h
          · exact .inr ⟨c, r, h1, h2, by omega, h4⟩
        · rintro (h | ⟨c, r, h1, h2, h3, h4, h5⟩)
          · exact .inl h
          · refine .inr ⟨c, r, h1, h2, ?_, h4, h5⟩
            by_contra hk
            exact hb (by rw [← show c.val - ox = k by omega]; exact h4)

/-- A sprite row toggles exactly the pixels under its set bits. -/
theorem plotRow_pixel (acc : Pixels × Bool) (ox py : Nat) (b : Byte) (c : Fin 64) (r : Fin 32) :
    pixelOf (plotRow acc ox py b).1 c r
      = (pixelOf acc.1 c r ^^ (decide (py = r.val) && rowCovers ox b c.val)) := by
  rw [plotRow, (plotRow_prefix acc ox py b 8).1 c r]
  simp [rowCovers, Bool.decide_and, Bool.and_assoc]

/-- A sprite row sets the collision flag if a set bit of it meets a pixel that is on. -/
theorem plotRow_hit (acc : Pixels × Bool) (ox py : Nat) (b : Byte) :
    (plotRow acc ox py b).2 = true ↔ acc.2 = true ∨ ∃ (c : Fin 64) (r : Fin 32),
      py = r.val ∧ rowCovers ox b c.val = true ∧ pixelOf acc.1 c r = true := by
  rw [plotRow, (plotRow_prefix acc ox py b 8).2]
  simp only [rowCovers, Bool.and_eq_true, decide_eq_true_eq, and_assoc]

end Sys2Proof.Machine
end

