-- ==== Sys2Proof/Laws/PerInstr.lean ====
section
/-! SUPPORT. Per instruction: its encoding is a word its row of the opcode table selects (30_encoding.md R104). -/

namespace Sys2Proof

/-- The mask of a row that fixes the family alone keeps the family. -/
theorem mask_family (w : Word) : w &&& 0xF000#16 = wordNnn (famField w) 0 := by
  rw [← wordNnn_fields (w &&& 0xF000#16)]
  congr 1
  · unfold famField
    rw [BitVec.extractLsb'_and, show BitVec.extractLsb' 12 4 0xF000#16 = BitVec.allOnes 4 by decide, BitVec.and_allOnes]
  · unfold nnnField
    rw [BitVec.extractLsb'_and, show BitVec.extractLsb' 0 12 0xF000#16 = 0#12 by decide, BitVec.and_zero]
    rfl

/-- The mask of a row that fixes the family and `n` keeps both. -/
theorem mask_family_n (w : Word) : w &&& 0xF00F#16 = wordXyn (famField w) 0 0 (nField w) := by
  rw [← wordXyn_fields (w &&& 0xF00F#16)]
  unfold famField xField yField nField
  simp only [BitVec.extractLsb'_and, show BitVec.extractLsb' 12 4 0xF00F#16 = BitVec.allOnes 4 by decide,
    show BitVec.extractLsb' 8 4 0xF00F#16 = 0#4 by decide, show BitVec.extractLsb' 4 4 0xF00F#16 = 0#4 by decide,
    show BitVec.extractLsb' 0 4 0xF00F#16 = BitVec.allOnes 4 by decide, BitVec.and_allOnes, BitVec.and_zero]
  rfl

/-- The mask of a row that fixes the family and `kk` keeps both. -/
theorem mask_family_kk (w : Word) : w &&& 0xF0FF#16 = wordXkk (famField w) 0 (kkField w) := by
  rw [← wordXkk_fields (w &&& 0xF0FF#16)]
  unfold famField xField kkField
  simp only [BitVec.extractLsb'_and, show BitVec.extractLsb' 12 4 0xF0FF#16 = BitVec.allOnes 4 by decide,
    show BitVec.extractLsb' 8 4 0xF0FF#16 = 0#4 by decide,
    show BitVec.extractLsb' 0 8 0xF0FF#16 = BitVec.allOnes 8 by decide, BitVec.and_allOnes, BitVec.and_zero]
  rfl

namespace Laws.OpcodeRow

/-- The instruction's row selects its word: `w AND mask == match` (R104). -/
def Statement (ins : Instr) : Prop := (rowOf ins).selects (encode ins) = true

theorem cls : Statement .cls := by unfold Statement; decide

theorem ret : Statement .ret := by unfold Statement; decide

theorem sys (nnn : Addr12) : Statement (.sys nnn) := by
  simp only [Statement, OpcodeRow.selects, rowOf, encode, beq_iff_eq]
  erw [mask_family]
  simp only [famField_wordNnn]
  rfl

theorem jp (nnn : Addr12) : Statement (.jp nnn) := by
  simp only [Statement, OpcodeRow.selects, rowOf, encode, beq_iff_eq]
  erw [mask_family]
  simp only [famField_wordNnn]
  rfl

theorem call (nnn : Addr12) : Statement (.call nnn) := by
  simp only [Statement, OpcodeRow.selects, rowOf, encode, beq_iff_eq]
  erw [mask_family]
  simp only [famField_wordNnn]
  rfl

theorem seImm (x : Nibble) (kk : Byte) : Statement (.seImm x kk) := by
  simp only [Statement, OpcodeRow.selects, rowOf, encode, beq_iff_eq]
  erw [mask_family]
  simp only [famField_wordXkk]
  rfl

theorem sneImm (x : Nibble) (kk : Byte) : Statement (.sneImm x kk) := by
  simp only [Statement, OpcodeRow.selects, rowOf, encode, beq_iff_eq]
  erw [mask_family]
  simp only [famField_wordXkk]
  rfl

theorem seReg (x y : Nibble) : Statement (.seReg x y) := by
  simp only [Statement, OpcodeRow.selects, rowOf, encode, beq_iff_eq]
  erw [mask_family_n]
  simp only [famField_wordXyn, nField_wordXyn]
  rfl

theorem ldImm (x : Nibble) (kk : Byte) : Statement (.ldImm x kk) := by
  simp only [Statement, OpcodeRow.selects, rowOf, encode, beq_iff_eq]
  erw [mask_family]
  simp only [famField_wordXkk]
  rfl

theorem addImm (x : Nibble) (kk : Byte) : Statement (.addImm x kk) := by
  simp only [Statement, OpcodeRow.selects, rowOf, encode, beq_iff_eq]
  erw [mask_family]
  simp only [famField_wordXkk]
  rfl

theorem ldReg (x y : Nibble) : Statement (.ldReg x y) := by
  simp only [Statement, OpcodeRow.selects, rowOf, encode, beq_iff_eq]
  erw [mask_family_n]
  simp only [famField_wordXyn, nField_wordXyn]
  rfl

theorem orReg (x y : Nibble) : Statement (.orReg x y) := by
  simp only [Statement, OpcodeRow.selects, rowOf, encode, beq_iff_eq]
  erw [mask_family_n]
  simp only [famField_wordXyn, nField_wordXyn]
  rfl

theorem andReg (x y : Nibble) : Statement (.andReg x y) := by
  simp only [Statement, OpcodeRow.selects, rowOf, encode, beq_iff_eq]
  erw [mask_family_n]
  simp only [famField_wordXyn, nField_wordXyn]
  rfl

theorem xorReg (x y : Nibble) : Statement (.xorReg x y) := by
  simp only [Statement, OpcodeRow.selects, rowOf, encode, beq_iff_eq]
  erw [mask_family_n]
  simp only [famField_wordXyn, nField_wordXyn]
  rfl

theorem addReg (x y : Nibble) : Statement (.addReg x y) := by
  simp only [Statement, OpcodeRow.selects, rowOf, encode, beq_iff_eq]
  erw [mask_family_n]
  simp only [famField_wordXyn, nField_wordXyn]
  rfl

theorem sub (x y : Nibble) : Statement (.sub x y) := by
  simp only [Statement, OpcodeRow.selects, rowOf, encode, beq_iff_eq]
  erw [mask_family_n]
  simp only [famField_wordXyn, nField_wordXyn]
  rfl

theorem shr (x y : Nibble) : Statement (.shr x y) := by
  simp only [Statement, OpcodeRow.selects, rowOf, encode, beq_iff_eq]
  erw [mask_family_n]
  simp only [famField_wordXyn, nField_wordXyn]
  rfl

theorem subn (x y : Nibble) : Statement (.subn x y) := by
  simp only [Statement, OpcodeRow.selects, rowOf, encode, beq_iff_eq]
  erw [mask_family_n]
  simp only [famField_wordXyn, nField_wordXyn]
  rfl

theorem shl (x y : Nibble) : Statement (.shl x y) := by
  simp only [Statement, OpcodeRow.selects, rowOf, encode, beq_iff_eq]
  erw [mask_family_n]
  simp only [famField_wordXyn, nField_wordXyn]
  rfl

theorem sneReg (x y : Nibble) : Statement (.sneReg x y) := by
  simp only [Statement, OpcodeRow.selects, rowOf, encode, beq_iff_eq]
  erw [mask_family_n]
  simp only [famField_wordXyn, nField_wordXyn]
  rfl

theorem ldI (nnn : Addr12) : Statement (.ldI nnn) := by
  simp only [Statement, OpcodeRow.selects, rowOf, encode, beq_iff_eq]
  erw [mask_family]
  simp only [famField_wordNnn]
  rfl

theorem jpV0 (nnn : Addr12) : Statement (.jpV0 nnn) := by
  simp only [Statement, OpcodeRow.selects, rowOf, encode, beq_iff_eq]
  erw [mask_family]
  simp only [famField_wordNnn]
  rfl

theorem rnd (x : Nibble) (kk : Byte) : Statement (.rnd x kk) := by
  simp only [Statement, OpcodeRow.selects, rowOf, encode, beq_iff_eq]
  erw [mask_family]
  simp only [famField_wordXkk]
  rfl

theorem drw (x y n : Nibble) : Statement (.drw x y n) := by
  simp only [Statement, OpcodeRow.selects, rowOf, encode, beq_iff_eq]
  erw [mask_family]
  simp only [famField_wordXyn]
  rfl

theorem skp (x : Nibble) : Statement (.skp x) := by
  simp only [Statement, OpcodeRow.selects, rowOf, encode, beq_iff_eq]
  erw [mask_family_kk]
  simp only [famField_wordXkk, kkField_wordXkk]
  rfl

theorem sknp (x : Nibble) : Statement (.sknp x) := by
  simp only [Statement, OpcodeRow.selects, rowOf, encode, beq_iff_eq]
  erw [mask_family_kk]
  simp only [famField_wordXkk, kkField_wordXkk]
  rfl

theorem ldVDt (x : Nibble) : Statement (.ldVDt x) := by
  simp only [Statement, OpcodeRow.selects, rowOf, encode, beq_iff_eq]
  erw [mask_family_kk]
  simp only [famField_wordXkk, kkField_wordXkk]
  rfl

theorem ldVK (x : Nibble) : Statement (.ldVK x) := by
  simp only [Statement, OpcodeRow.selects, rowOf, encode, beq_iff_eq]
  erw [mask_family_kk]
  simp only [famField_wordXkk, kkField_wordXkk]
  rfl

theorem ldDtV (x : Nibble) : Statement (.ldDtV x) := by
  simp only [Statement, OpcodeRow.selects, rowOf, encode, beq_iff_eq]
  erw [mask_family_kk]
  simp only [famField_wordXkk, kkField_wordXkk]
  rfl

theorem ldStV (x : Nibble) : Statement (.ldStV x) := by
  simp only [Statement, OpcodeRow.selects, rowOf, encode, beq_iff_eq]
  erw [mask_family_kk]
  simp only [famField_wordXkk, kkField_wordXkk]
  rfl

theorem addIV (x : Nibble) : Statement (.addIV x) := by
  simp only [Statement, OpcodeRow.selects, rowOf, encode, beq_iff_eq]
  erw [mask_family_kk]
  simp only [famField_wordXkk, kkField_wordXkk]
  rfl

theorem ldFV (x : Nibble) : Statement (.ldFV x) := by
  simp only [Statement, OpcodeRow.selects, rowOf, encode, beq_iff_eq]
  erw [mask_family_kk]
  simp only [famField_wordXkk, kkField_wordXkk]
  rfl

theorem ldBV (x : Nibble) : Statement (.ldBV x) := by
  simp only [Statement, OpcodeRow.selects, rowOf, encode, beq_iff_eq]
  erw [mask_family_kk]
  simp only [famField_wordXkk, kkField_wordXkk]
  rfl

theorem ldMemV (x : Nibble) : Statement (.ldMemV x) := by
  simp only [Statement, OpcodeRow.selects, rowOf, encode, beq_iff_eq]
  erw [mask_family_kk]
  simp only [famField_wordXkk, kkField_wordXkk]
  rfl

theorem ldVMem (x : Nibble) : Statement (.ldVMem x) := by
  simp only [Statement, OpcodeRow.selects, rowOf, encode, beq_iff_eq]
  erw [mask_family_kk]
  simp only [famField_wordXkk, kkField_wordXkk]
  rfl

end Laws.OpcodeRow

end Sys2Proof
end

