-- ==== Sys2Proof/Laws/Step.lean ====
section
/-! SUPPORT. What executing an instruction, and a step, can answer. -/

namespace Sys2Proof.Machine

/-- A checked access answers a next state. -/
theorem accessing_next (s : State) (word : Word) (kind : AccessKind) (len : Nat) (after : State) :
    ∃ t, accessing s word kind len after = .next t := by
  unfold accessing
  split <;> exact ⟨_, rfl⟩

/-- Every meaning answers a next state (log entry 1). -/
theorem exec_next (ins : Instr) (s : State) : ∃ t, exec ins s = .next t := by
  cases ins <;> simp only [exec]
  case ret => unfold execRet; split <;> exact ⟨_, rfl⟩
  case call => unfold execCall; split <;> exact ⟨_, rfl⟩
  case skp => unfold execSkp keySkip; split <;> exact ⟨_, rfl⟩
  case sknp => unfold execSknp keySkip; split <;> exact ⟨_, rfl⟩
  case ldVK => unfold execLdVK; split <;> exact ⟨_, rfl⟩
  case drw => exact accessing_next ..
  case ldBV => exact accessing_next ..
  case ldMemV => exact accessing_next ..
  case ldVMem => exact accessing_next ..
  all_goals exact ⟨_, rfl⟩

/-- `nextInstr` is what the fetched word decodes to, in a running block. -/
theorem nextInstr_eq_some {s : State} {ins : Instr} :
    nextInstr s = some ins ↔ s.fault = none ∧ ∃ w, fetch s = .ok w ∧ decode w = .ok ins := by
  unfold nextInstr
  cases hf : s.fault with
  | some r => simp
  | none =>
    cases hw : fetch s with
    | error r => simp
    | ok w =>
      cases hd : decode w with
      | error e => simp [hd]
      | ok j => simp [hd]

/-- A step that executes an instruction: exec of it with `draw` cleared, and the timers unless it faults. -/
theorem step_of_nextInstr {s : State} {ins : Instr} (h : nextInstr s = some ins) :
    step s = endCycle (exec ins (clearDraw s)) := by
  obtain ⟨hf, w, hw, hd⟩ := nextInstr_eq_some.mp h
  simp [step, hf, hw, hd]

/-- Everything a step can do. -/
theorem step_cases {s t : State} (h : step s = .next t) :
    (s.fault.isSome = true ∧ t = s) ∨
    (s.fault = none ∧ ∃ r, fetch s = .error r ∧ t = raise (clearDraw s) r) ∨
    (s.fault = none ∧ ∃ w e, fetch s = .ok w ∧ decode w = .error e ∧
      t = raise (clearDraw s) (plainRecord .unknownOpcode s.pc w)) ∨
    (∃ ins u, nextInstr s = some ins ∧ exec ins (clearDraw s) = .next u ∧
      t = if u.fault.isSome then u else tickTimers u) := by
  cases hf : s.fault with
  | some r =>
    simp only [step, hf, Option.isSome_some, if_true] at h
    cases h
    exact .inl ⟨rfl, rfl⟩
  | none =>
    cases hw : fetch s with
    | error r =>
      simp only [step, hf, hw, Option.isSome_none, fetch_clearDraw] at h
      cases h
      exact .inr (.inl ⟨rfl, r, rfl, rfl⟩)
    | ok w =>
      cases hd : decode w with
      | error e =>
        simp only [step, hf, hw, hd, Option.isSome_none, fetch_clearDraw] at h
        cases h
        exact .inr (.inr (.inl ⟨rfl, w, e, rfl, hd, rfl⟩))
      | ok ins =>
        have hn : nextInstr s = some ins := nextInstr_eq_some.mpr ⟨hf, w, hw, hd⟩
        obtain ⟨u, hu⟩ := exec_next ins (clearDraw s)
        rw [step_of_nextInstr hn, hu] at h
        cases h
        exact .inr (.inr (.inr ⟨ins, u, hn, hu, rfl⟩))

end Sys2Proof.Machine
end

