-- ==== Sys2Proof/Tests/Slice0.lean ====
section
/-! SUPPORT. Tests. The expected results are those of spec/95_test_vectors.md (V<n>, S<n>) or worked out by hand from the
patterns of spec/30_encoding.md §2; the witnesses show that the hypotheses of each statement can be met, at the ends of
their ranges. -/

namespace Sys2Proof.Tests

open Sys2Proof.Machine

/-! ### Helpers -/

/-- The reset state with some registers set. -/
def regs (l : List (Nibble × Byte)) : State := l.foldl (fun s p => writeV s p.1 p.2) .reset

/-- The state with `bs` in memory from `a`. -/
def withBytes (s : State) (a : Nat) (bs : List Byte) : State := { s with mem := Memory.writeBytes s.mem a bs }

/-- The state with the pixel at column `c`, row `r` on. -/
def withPixel (s : State) (c : Fin 64) (r : Fin 32) : State := { s with gfx := setPixel s.gfx c r true }

/-- The state with one key pressed. -/
def withKey (s : State) (k : Fin 16) : State := { s with keys := s.keys.set k.val true k.isLt }

/-- What `f` sees in the state an answer leaves. -/
def see {α : Type} (answer : Result) (f : State → α) : Option α :=
  match answer with
  | .next t => some (f t)
  | .fault _ => none
  | .refused _ => none

/-- One cycle on the word `w` placed at `PC`. -/
def run {α : Type} (s : State) (w : Nat) (f : State → α) : Option α := see (step (s.withFetchWord 16 w)) f

/-! ### Well-formedness: the one check, and a term it refuses for each excluded word -/

theorem test_wf_refuses_00E0 : (Instr.sys 0x0E0).wf = false := by decide

theorem test_wf_refuses_00EE : (Instr.sys 0x0EE).wf = false := by decide

theorem test_wf_accepts_neighbours : (Instr.sys 0x0E1).wf = true ∧ (Instr.sys 0x0ED).wf = true ∧ Instr.cls.wf = true := by
  decide

/-! ### Decoding: one word for each constructor, written out from its pattern -/

theorem test_decode_families_0_to_2 :
    [0x00E0, 0x00EE, 0x0ABC, 0x1DEF, 0x2345].map (fun w => (decode w).toOption) =
      [some .cls, some .ret, some (.sys 0xABC), some (.jp 0xDEF), some (.call 0x345)] := by decide

theorem test_decode_families_3_to_7 :
    [0x3A42, 0x4B17, 0x5CD0, 0x6EF1, 0x7123].map (fun w => (decode w).toOption) =
      [some (.seImm 0xA 0x42), some (.sneImm 0xB 0x17), some (.seReg 0xC 0xD), some (.ldImm 0xE 0xF1),
       some (.addImm 0x1 0x23)] := by decide

theorem test_decode_family_8_copies :
    [0x8120, 0x8341, 0x8562, 0x8783].map (fun w => (decode w).toOption) =
      [some (.ldReg 1 2), some (.orReg 3 4), some (.andReg 5 6), some (.xorReg 7 8)] := by decide

theorem test_decode_family_8_flags :
    [0x89A4, 0x8BC5, 0x8DE6, 0x8F07, 0x812E].map (fun w => (decode w).toOption) =
      [some (.addReg 9 0xA), some (.sub 0xB 0xC), some (.shr 0xD 0xE), some (.subn 0xF 0), some (.shl 1 2)] := by decide

theorem test_decode_families_9_to_D :
    [0x9120, 0xA123, 0xB456, 0xC70F, 0xD89A].map (fun w => (decode w).toOption) =
      [some (.sneReg 1 2), some (.ldI 0x123), some (.jpV0 0x456), some (.rnd 7 0x0F), some (.drw 8 9 0xA)] := by decide

theorem test_decode_families_E_and_F_timers :
    [0xE49E, 0xE5A1, 0xF607, 0xF70A, 0xF815, 0xF918].map (fun w => (decode w).toOption) =
      [some (.skp 4), some (.sknp 5), some (.ldVDt 6), some (.ldVK 7), some (.ldDtV 8), some (.ldStV 9)] := by decide

theorem test_decode_family_F_index :
    [0xFA1E, 0xFB29, 0xFC33, 0xFD55, 0xFE65].map (fun w => (decode w).toOption) =
      [some (.addIV 0xA), some (.ldFV 0xB), some (.ldBV 0xC), some (.ldMemV 0xD), some (.ldVMem 0xE)] := by decide

/-- V19, V51, V52, V55, V77, V105, and `FFFF` of P6. -/
theorem test_decode_illegal :
    [0x5121, 0x8128, 0x812F, 0x9121, 0xE49F, 0xF100, 0xFFFF].all (fun w => (decode w).toOption.isNone) = true := by decide

theorem test_decode_table_word : decodeTableWord 16 0xD56F = some (.drw 5 6 0xF) ∧ decodeTableWord 16 0x5121 = none := by
  decide

/-! ### One cycle of each instruction -/

/-- V1. -/
theorem test_cls : run (withPixel (withPixel .reset 0 0) 63 31) 0x00E0
    (fun t => (pixel t 0 0, pixel t 63 31, t.draw, t.pc)) = some (false, false, true, 0x202) := by decide

/-- V3: the popped slot keeps its value. -/
theorem test_ret : run { State.reset with pc := 0x300, sp := 1, stack := State.reset.stack.set 0 0x204 } 0x00EE
    (fun t => (t.pc, t.sp, t.stack[0])) = some (0x206, 0, 0x204) := by decide

/-- V4. -/
theorem test_ret_underflow : run { State.reset with pc := 0x300 } 0x00EE (fun t => (t.pc, t.fault)) =
    some (0x300, some ⟨.stackUnderflow, 0x300, some 0x00EE, none, none, none⟩) := by decide

/-- V6. -/
theorem test_sys : run { State.reset with pc := 0x300 } 0x0123 (fun t => (t.pc, t.sp)) = some (0x302, 0) := by decide

/-- V8. -/
theorem test_jp : run .reset 0x1234 (fun t => t.pc) = some 0x234 := by decide

/-- V11: it pushes its own address. -/
theorem test_call : run { State.reset with pc := 0x206, sp := 15 } 0x2400 (fun t => (t.pc, t.sp, t.stack[15])) =
    some (0x400, 16, 0x206) := by decide

/-- V11a. -/
theorem test_call_overflow : run { State.reset with pc := 0x206, sp := 16 } 0x2400 (fun t => (t.pc, t.sp, t.fault)) =
    some (0x206, 16, some ⟨.stackOverflow, 0x206, some 0x2400, none, none, none⟩) := by decide

/-- V12, V13. -/
theorem test_seImm : run (regs [(0xA, 0x42)]) 0x3A42 (fun t => t.pc) = some 0x204 ∧
    run (regs [(0xA, 0x41)]) 0x3A42 (fun t => t.pc) = some 0x202 := by decide

/-- V14, V15. -/
theorem test_sneImm : run (regs [(0xA, 0x42)]) 0x4A42 (fun t => t.pc) = some 0x202 ∧
    run (regs [(0xA, 0x41)]) 0x4A42 (fun t => t.pc) = some 0x204 := by decide

/-- V16, V17. -/
theorem test_seReg : run (regs [(1, 7), (2, 7)]) 0x5120 (fun t => t.pc) = some 0x204 ∧
    run (regs [(1, 7), (2, 8)]) 0x5120 (fun t => t.pc) = some 0x202 := by decide

/-- V20. -/
theorem test_ldImm : run .reset 0x6AFF (fun t => (readV t 0xA, t.pc)) = some (0xFF, 0x202) := by decide

/-- V21: no carry flag. -/
theorem test_addImm : run (regs [(0xA, 0xFF)]) 0x7A01 (fun t => (readV t 0xA, readV t 0xF, t.pc)) =
    some (0, 0, 0x202) := by decide

/-- V23. -/
theorem test_ldReg : run (regs [(2, 0x33)]) 0x8120 (fun t => (readV t 1, readV t 2)) = some (0x33, 0x33) := by decide

/-- V24. -/
theorem test_orReg : run (regs [(1, 0x0F), (2, 0xF0), (0xF, 0x77)]) 0x8121 (fun t => (readV t 1, readV t 0xF)) =
    some (0xFF, 0x77) := by decide

/-- V25. -/
theorem test_andReg : run (regs [(1, 0x3C), (2, 0x0F), (0xF, 0x77)]) 0x8122 (fun t => (readV t 1, readV t 0xF)) =
    some (0x0C, 0x77) := by decide

/-- V26. -/
theorem test_xorReg : run (regs [(1, 0xFF), (2, 0x0F), (0xF, 0x77)]) 0x8123 (fun t => (readV t 1, readV t 0xF)) =
    some (0xF0, 0x77) := by decide

/-- V28 (S3). -/
theorem test_addReg : run (regs [(1, 0xFF), (2, 0x01)]) 0x8124 (fun t => (readV t 1, readV t 0xF)) = some (0, 1) := by
  decide

/-- V31, V32: `VF` as an operand. -/
theorem test_addReg_with_VF : run (regs [(0xF, 0x90)]) 0x8FF4 (fun t => readV t 0xF) = some 0x20 ∧
    run (regs [(1, 0xFF), (0xF, 2)]) 0x81F4 (fun t => (readV t 1, readV t 0xF)) = some (1, 1) := by decide

/-- V35, V36: the flag is a strict comparison. -/
theorem test_sub : run (regs [(1, 3), (2, 5)]) 0x8125 (fun t => (readV t 1, readV t 0xF)) = some (0xFE, 0) ∧
    run (regs [(1, 4), (2, 4)]) 0x8125 (fun t => (readV t 1, readV t 0xF)) = some (0, 0) := by decide

/-- V37, V38. -/
theorem test_sub_with_VF : run (regs [(0xF, 0x10), (2, 3)]) 0x8F25 (fun t => readV t 0xF) = some 0xFE ∧
    run (regs [(1, 0x10), (0xF, 3)]) 0x81F5 (fun t => (readV t 1, readV t 0xF)) = some (0x0F, 1) := by decide

/-- V40 (S4), V41. -/
theorem test_shr : run (regs [(1, 3)]) 0x8126 (fun t => (readV t 1, readV t 0xF)) = some (1, 1) ∧
    run (regs [(1, 0x80), (2, 0xFF)]) 0x8126 (fun t => (readV t 1, readV t 0xF)) = some (0x40, 0) := by decide

/-- V42. -/
theorem test_shr_VF : run (regs [(0xF, 3)]) 0x8F26 (fun t => readV t 0xF) = some 0 := by decide

/-- V43, V44. -/
theorem test_subn : run (regs [(1, 3), (2, 5)]) 0x8127 (fun t => (readV t 1, readV t 0xF)) = some (2, 1) ∧
    run (regs [(1, 5), (2, 3)]) 0x8127 (fun t => (readV t 1, readV t 0xF)) = some (0xFE, 0) := by decide

/-- V46, V47. -/
theorem test_subn_with_VF : run (regs [(0xF, 3), (2, 0x10)]) 0x8F27 (fun t => readV t 0xF) = some 0x0F ∧
    run (regs [(1, 3), (0xF, 0x10)]) 0x81F7 (fun t => (readV t 1, readV t 0xF)) = some (0xFE, 1) := by decide

/-- V48, V49. -/
theorem test_shl : run (regs [(1, 0x81)]) 0x812E (fun t => (readV t 1, readV t 0xF)) = some (2, 1) ∧
    run (regs [(1, 0x40)]) 0x812E (fun t => (readV t 1, readV t 0xF)) = some (0x80, 0) := by decide

/-- V50. -/
theorem test_shl_VF : run (regs [(0xF, 0x81)]) 0x8F2E (fun t => readV t 0xF) = some 2 := by decide

/-- V53, V54. -/
theorem test_sneReg : run (regs [(1, 1), (2, 2)]) 0x9120 (fun t => t.pc) = some 0x204 ∧
    run (regs [(1, 2), (2, 2)]) 0x9120 (fun t => t.pc) = some 0x202 := by decide

/-- V56. -/
theorem test_ldI : run .reset 0xA123 (fun t => (t.i, t.pc)) = some (0x123, 0x202) := by decide

/-- V57, V58. -/
theorem test_jpV0 : run (regs [(0, 4)]) 0xB300 (fun t => t.pc) = some 0x304 ∧
    run (regs [(0, 0xFF)]) 0xBFFF (fun t => t.pc) = some 0x10FE := by decide

/-- V59, V60: with the byte given. -/
theorem test_rnd :
    see (cycle 0xA5 (State.reset.withFetchWord 16 0xC30F)) (fun t => (readV t 3, t.pc)) = some (5, 0x202) ∧
    see (cycle 0xFF (State.reset.withFetchWord 16 0xC300)) (fun t => (readV t 3, t.pc)) = some (0, 0x202) := by decide

/-- With the byte left open: the bits `kk` clears are 0, and the draw is counted. -/
theorem test_rnd_free : run (regs [(0xF, 1)]) 0xC300 (fun t => (t.draws, readV t 0xF, t.pc)) = some (1, 1, 0x202) := by
  decide

/-- V64. -/
theorem test_drw : run (withPixel (withBytes { State.reset with i := 0x300 } 0x300 [0x81]) 0 0) 0xD011
    (fun t => (pixel t 0 0, pixel t 7 0, pixel t 1 0, readV t 0xF, t.draw)) = some (false, true, false, 1, true) := by decide

/-- V70: clipped at the corner. -/
theorem test_drw_clips : run (withBytes { regs [(0, 0x7F), (1, 0x3F)] with i := 0x300 } 0x300 [0xC0]) 0xD011
    (fun t => (pixel t 63 31, pixel t 0 31, readV t 0xF)) = some (true, false, 0) := by decide

/-- V71, V75. -/
theorem test_skp : run (withKey (regs [(4, 0xA)]) 0xA) 0xE49E (fun t => t.pc) = some 0x204 ∧
    run (regs [(4, 0x10)]) 0xE49E (fun t => (t.pc, t.fault)) =
      some (0x200, some ⟨.keyIndex, 0x200, some 0xE49E, none, none, some 0x10⟩) := by decide

/-- V73, V74. -/
theorem test_sknp : run (withKey (regs [(4, 0xA)]) 0xA) 0xE4A1 (fun t => t.pc) = some 0x202 ∧
    run (regs [(4, 0xA)]) 0xE4A1 (fun t => t.pc) = some 0x204 := by decide

/-- V78, V79. -/
theorem test_ldVDt : run { State.reset with dt := 4 } 0xF107 (fun t => (readV t 1, t.dt)) = some (4, 3) ∧
    run (regs [(1, 9)]) 0xF107 (fun t => (readV t 1, t.dt)) = some (0, 0) := by decide

/-- V80, V81. -/
theorem test_ldVK : run (withKey (withKey (regs [(5, 0xEE)]) 9) 3) 0xF50A (fun t => readV t 5) = some 3 ∧
    run (regs [(5, 0xEE)]) 0xF50A (fun t => (readV t 5, t.pc)) = some (0xEE, 0x202) := by decide

/-- V83, V84. -/
theorem test_ldDtV : run (regs [(0, 5)]) 0xF015 (fun t => t.dt) = some 4 ∧
    run { State.reset with dt := 7 } 0xF015 (fun t => t.dt) = some 0 := by decide

/-- V85, V86. -/
theorem test_ldStV : run (regs [(2, 0xA)]) 0xF218 (fun t => t.st) = some 9 ∧
    run (regs [(2, 1)]) 0xF218 (fun t => t.st) = some 0 := by decide

/-- V88, V89. -/
theorem test_addIV : run { regs [(3, 2)] with i := 0xFFFF } 0xF31E (fun t => (t.i, readV t 0xF)) = some (1, 0) ∧
    run { regs [(3, 1)] with i := 0xFFF } 0xF31E (fun t => (t.i, readV t 0xF)) = some (0x1000, 0) := by decide

/-- V90, V91. -/
theorem test_ldFV : run (regs [(1, 0xA)]) 0xF129 (fun t => t.i) = some 0x082 ∧
    run (regs [(1, 0xFF)]) 0xF129 (fun t => t.i) = some 0x54B := by decide

/-- V92 (S5). -/
theorem test_ldBV : run { regs [(0, 0xEA)] with i := 0x300 } 0xF033
    (fun t => (readByte t 0x300, readByte t 0x301, readByte t 0x302, t.i)) = some (2, 3, 4, 0x300) := by decide

/-- V96: nothing is stored. -/
theorem test_ldBV_bounds : run { regs [(0, 0xFF)] with i := 0xFFE } 0xF033 (fun t => (readByte t 0xFFE, t.fault)) =
    some (0, some ⟨.memoryBounds, 0x200, some 0xF033, some .write, some 0x1000, none⟩) := by decide

/-- V97. -/
theorem test_ldMemV : run { regs [(0, 1), (1, 2), (2, 3)] with i := 0x400 } 0xF255
    (fun t => (readByte t 0x400, readByte t 0x401, readByte t 0x402, readByte t 0x403, t.i)) =
      some (1, 2, 3, 0, 0x400) := by decide

/-- V100. -/
theorem test_ldMemV_bounds : run { State.reset with i := 0xFF1 } 0xFF55 (fun t => t.fault) =
    some (some ⟨.memoryBounds, 0x200, some 0xFF55, some .write, some 0x1000, none⟩) := by decide

/-- V101. -/
theorem test_ldVMem : run (withBytes { State.reset with i := 0x400 } 0x400 [1, 2, 3]) 0xF265
    (fun t => (readV t 0, readV t 1, readV t 2, t.i)) = some (1, 2, 3, 0x400) := by decide

/-- V103. -/
theorem test_ldVMem_bounds : run { State.reset with i := 0xFFF } 0xF165 (fun t => (t.pc, t.fault)) =
    some (0x200, some ⟨.memoryBounds, 0x200, some 0xF165, some .read, some 0x1000, none⟩) := by decide

/-! ### The cycle and the host -/

/-- V106, V111. -/
theorem test_cycle_timers : run { State.reset with dt := 1, st := 3, draw := true } 0x6000
    (fun t => (t.dt, t.st, t.draw, t.pc)) = some (0, 2, false, 0x202) := by decide

/-- V107, V110. -/
theorem test_fetch_fault : see (step { State.reset with pc := 0xFFF, dt := 5 }) (fun t => (t.dt, t.pc, t.fault)) =
    some (5, 0xFFF, some ⟨.memoryBounds, 0xFFF, none, some .fetch, some 0x1000, none⟩) := by decide

/-- V108: an odd address is fetched. -/
theorem test_odd_fetch : see (step (withBytes { State.reset with pc := 0x201 } 0x201 [0x6A, 0x01]))
    (fun t => (readV t 0xA, t.pc)) = some (1, 0x203) := by decide

/-- V19. -/
theorem test_unknown_opcode : run .reset 0x5121 (fun t => (t.pc, t.fault)) =
    some (0x200, some ⟨.unknownOpcode, 0x200, some 0x5121, none, none, none⟩) := by decide

/-! ### Witnesses: a state and operands that meet all hypotheses of a statement, for each of its clauses -/

/-- A state with `I` set. -/
def atI (a : Word) : State := { State.reset with i := a }

/-- A state with the word of an instruction at `PC`. -/
def placed (s : State) (ins : Instr) : State := s.withFetchWord 16 (encode ins).toNat

theorem witness_DecodeOfEncode : (Instr.sys 0x0E1).wf = true ∧ (Instr.sys 0xFFF).wf = true ∧
    (Instr.drw 0xF 0xF 0xF).wf = true := by decide

theorem witness_EncodeOfDecode : decode 0x00E1 = .ok (.sys 0x0E1) ∧ decode 0xFF65 = .ok (.ldVMem 0xF) := by
  exact ⟨rfl, rfl⟩

theorem witness_DecodeFollowsOpcodeTable :
    (rowOf .cls ∈ opcodeTable ∧ rowOf (.sys 0) ∈ opcodeTable ∧ (rowOf .cls).selects 0x00E0 = true ∧
      (rowOf (.sys 0)).selects 0x00E0 = true) ∧
    rowOf (.drw 0 0 0) ∈ opcodeTable ∧ (rowOf (.drw 0 0 0)).selects 0xDFFF = true := by decide

theorem witness_FetchIsBigEndian : ({ State.reset with pc := 0xFFE } : State).pc.toNat < 0xFFF := by decide

theorem witness_ReturnPopsAndAddsTwo :
    ({ State.reset with sp := 1 } : State).sp.val = (0 : Fin 16).val + 1 ∧
    ({ State.reset with sp := 16 } : State).sp.val = (15 : Fin 16).val + 1 ∧ State.reset.sp.val = 0 := by decide

theorem witness_CallPushesItsOwnAddress :
    State.reset.sp.val = (0 : Fin 16).val ∧ ({ State.reset with sp := 15 } : State).sp.val = (15 : Fin 16).val ∧
    ({ State.reset with sp := 16 } : State).sp.val = 16 := by decide

theorem witness_FlagRegister_apart : (0xE#4 : Nibble) ≠ 0xF#4 ∧ (0xD#4 : Nibble) ≠ 0xE#4 ∧ (0xD#4 : Nibble) ≠ 0xF#4 := by
  decide

theorem witness_KeySkips : (readV (regs [(4, 0xF)]) 4).toNat = (15 : Fin 16).val ∧
    (readV State.reset 4).toNat = (0 : Fin 16).val ∧ 15 < (readV (regs [(4, 0x10)]) 4).toNat := by decide

theorem witness_KeyCheckNeverWaits :
    ((withKey (withKey .reset 9) 15).keys[(9 : Fin 16).val] = true ∧
      ∀ j : Fin 16, j < 9 → (withKey (withKey .reset 9) 15).keys[j.val] = false) ∧
    (∀ k : Fin 16, State.reset.keys[k.val] = false) := by decide

/-- One set bit at (0, 0), drawn from the last byte of memory. -/
def spriteState : State := withBytes (atI 0xFFF) 0xFFF [0x80]

theorem witness_SpriteTogglesAndCollides :
    ((0#4 : Nibble).toNat = 0 ∧ spriteState.i.toNat + (1#4 : Nibble).toNat - 1 ≤ 0xFFF) ∧
    (pixel (withPixel spriteState 0 0) 0 0 = true ∧ spriteCovers (withPixel spriteState 0 0) 0 1 1 0 0 = true) ∧
    (pixel (withPixel spriteState 1 0) 1 0 = true ∧ spriteCovers (withPixel spriteState 1 0) 0 1 1 1 0 = false) := by
  decide

theorem witness_SpriteTogglesAndCollides_none (c : Fin 64) (r : Fin 32) : pixel spriteState c r = false := by
  simp [spriteState, withBytes, atI, pixel, pixelOf, State.reset]

theorem witness_DrawTwiceRestores : ∃ t u, exec (.drw 0 1 1) spriteState = .next t ∧ exec (.drw 0 1 1) t = .next u ∧
    (0#4 : Nibble) ≠ 0xF#4 ∧ (1#4 : Nibble) ≠ 0xF#4 ∧ spriteState.i.toNat + (1#4 : Nibble).toNat - 1 ≤ 0xFFF ∧
    spriteCovers spriteState 0 1 1 0 0 = true := by
  obtain ⟨t, ht⟩ := exec_next (.drw 0 1 1) spriteState
  obtain ⟨u, hu⟩ := exec_next (.drw 0 1 1) t
  exact ⟨t, u, ht, hu, by decide, by decide, by decide, by decide⟩

theorem witness_DecimalStore : Memory.wf (atI 0xFFD).mem = true ∧ (atI 0xFFD).i.toNat + 2 ≤ 0xFFF := by decide

theorem witness_StoreRegisters : Memory.wf (atI 0xFF0).mem = true ∧
    (atI 0xFF0).i.toNat + (0xF#4 : Nibble).toNat ≤ 0xFFF ∧ (0xF#4 : Nibble).toNat ≤ (0xF#4 : Nibble).toNat := by decide

theorem witness_LoadRegisters : (atI 0xFFE).i.toNat + (1#4 : Nibble).toNat ≤ 0xFFF ∧
    (1#4 : Nibble).toNat ≤ (1#4 : Nibble).toNat ∧ (1#4 : Nibble).toNat < (2#4 : Nibble).toNat := by decide

theorem witness_BoundsFaultsRecorded :
    (0 < (2#4 : Nibble).toNat ∧ 0xFFF < (atI 0xFFF).i.toNat + (2#4 : Nibble).toNat - 1) ∧
    0xFFF < (atI 0xFFE).i.toNat + 2 ∧ 0xFFF < (atI 0xFFF).i.toNat + (1#4 : Nibble).toNat := by decide

theorem witness_StoreLoadRoundTrip : ∃ t w, Memory.wf (atI 0x400).mem = true ∧
    (atI 0x400).i.toNat + (2#4 : Nibble).toNat ≤ 0xFFF ∧ exec (.ldMemV 2) (atI 0x400) = .next t ∧
    ({ t with v := Vector.replicate 16 0 } : State).i = t.i ∧
    (∀ a, readByte { t with v := Vector.replicate 16 0 } a = readByte t a) ∧
    exec (.ldVMem 2) { t with v := Vector.replicate 16 0 } = .next w := by
  obtain ⟨t, ht⟩ := exec_next (.ldMemV 2) (atI 0x400)
  obtain ⟨w, hw⟩ := exec_next (.ldVMem 2) { t with v := Vector.replicate 16 0 }
  exact ⟨t, w, by decide, by decide, ht, rfl, fun _ => rfl, hw⟩

theorem witness_StepRunsDecodedInstruction : nextInstr (placed { State.reset with pc := 0xFFE } (.ldImm 1 2)) =
      some (.ldImm 1 2) ∧
    see (exec (.ldImm 1 2) { State.reset with pc := 0xFFE }) (fun u => u.fault) = some none ∧
    nextInstr (placed .reset .ret) = some .ret ∧
    see (exec .ret State.reset) (fun u => u.fault.isSome) = some true := by decide

theorem witness_FetchThenDecodeFaults :
    (State.reset.fault = none ∧ 0xFFF ≤ ({ State.reset with pc := 0xFFF } : State).pc.toNat) ∧
    (({ State.reset with pc := 0xFFE } : State).pc.toNat < 0xFFF ∧
      wordOfBytes (readByte (({ State.reset with pc := 0xFFE } : State).withFetchWord 16 0x5121) 0xFFE)
        (readByte (({ State.reset with pc := 0xFFE } : State).withFetchWord 16 0x5121) 0xFFF) = 0x5121) ∧
    (∀ ins, decode 0x5121 ≠ .ok ins) := by
  refine ⟨⟨rfl, by decide⟩, by decide, fun ins h => ?_⟩
  have h1 : (decode 0x5121).toOption = none := by decide
  rw [h] at h1
  cases h1

/-- A halted state. -/
def halted : State := raise .reset (plainRecord .stackUnderflow 0x200 0x00EE)

theorem witness_HaltedBlockDoesNothing : halted.fault = some (plainRecord .stackUnderflow 0x200 0x00EE) := by decide

theorem witness_FaultsArePrecise : ∃ t r, (placed .reset .ret).fault = none ∧ step (placed .reset .ret) = .next t ∧
    t.fault = some r := ⟨_, _, rfl, rfl, rfl⟩

theorem witness_FaultConditionsExactly :
    (see (exec (.call 0) { State.reset with sp := 16 }) (fun t => t.fault.isSome) = some true ∧
      see (exec (.call 0) { State.reset with sp := 15 }) (fun t => t.fault.isSome) = some false) ∧
    (see (exec .ret State.reset) (fun t => t.fault.isSome) = some true ∧
      see (exec .ret { State.reset with sp := 1 }) (fun t => t.fault.isSome) = some false) ∧
    (see (exec (.skp 4) (regs [(4, 0x10)])) (fun t => t.fault.isSome) = some true ∧
      see (exec (.skp 4) (regs [(4, 0xF)])) (fun t => t.fault.isSome) = some false) ∧
    (see (exec (.drw 0 0 2) (atI 0xFFF)) (fun t => t.fault.isSome) = some true ∧
      see (exec (.drw 0 0 0) (atI 0xFFFF)) (fun t => t.fault.isSome) = some false) ∧
    (see (exec (.ldBV 0) (atI 0xFFE)) (fun t => t.fault.isSome) = some true ∧
      see (exec (.ldBV 0) (atI 0xFFD)) (fun t => t.fault.isSome) = some false) ∧
    (see (exec (.ldMemV 1) (atI 0xFFF)) (fun t => t.fault.isSome) = some true ∧
      see (exec (.ldVMem 1) (atI 0xFFE)) (fun t => t.fault.isSome) = some false) := by decide

theorem witness_PcAdvancePolicy : ∃ t, Completes (placed .reset (.jpV0 0x300)) (.jpV0 0x300) t :=
  ⟨_, by decide, rfl, rfl⟩

theorem witness_TimersTickOncePerCycle :
    (∃ t, Completes (placed .reset (.ldDtV 0)) (.ldDtV 0) t) ∧ (∃ t, Completes (placed .reset (.ldStV 0)) (.ldStV 0) t) :=
  ⟨⟨_, by decide, rfl, rfl⟩, ⟨_, by decide, rfl, rfl⟩⟩

theorem witness_DrawFlagExactly :
    (∃ t, Completes (placed .reset .cls) .cls t) ∧ (∃ t, Completes (placed .reset (.drw 0 0 0)) (.drw 0 0 0) t) :=
  ⟨⟨_, by decide, rfl, rfl⟩, ⟨_, by decide, rfl, rfl⟩⟩

theorem witness_WritersOfState :
    run .reset 0xA123 (fun t => decide (t.i ≠ 0)) = some true ∧
    run .reset 0x2400 (fun t => decide (t.stack ≠ State.reset.stack)) = some true ∧
    run { State.reset with sp := 1 } 0x00EE (fun t => decide (t.sp ≠ 1)) = some true ∧
    run (withPixel .reset 0 0) 0x00E0 (fun t => pixel t 0 0) = some false ∧
    run .reset 0x6AFF (fun t => decide (readV t 0xA ≠ 0)) = some true ∧
    run { regs [(0, 1)] with i := 0xFFF } 0xF055 (fun t => decide (readByte t 0xFFF ≠ 0)) = some true := by decide

theorem witness_FrameOfEveryInstruction : State.reset.fault = none ∧
    see (exec (.ldI 1) .reset) (fun t => t.fault) = some none ∧
    see (exec .ret .reset) (fun t => t.fault.isSome) = some true := by decide

theorem witness_StepIsCycleOfDraw : nextInstr (placed .reset (.rnd 3 0xF)) = some (.rnd 3 0xF) ∧
    (∀ x kk, nextInstr (placed .reset .cls) ≠ some (.rnd x kk)) := by
  refine ⟨by decide, fun x kk h => ?_⟩
  rw [show nextInstr (placed .reset .cls) = some .cls by decide] at h
  cases h

theorem witness_HiddenStateIsUnread : nextInstr (placed .reset (.ldImm 1 2)) = some (.ldImm 1 2) ∧
    (∀ x, Instr.ldImm 1 2 ≠ .skp x ∧ Instr.ldImm 1 2 ≠ .sknp x ∧ Instr.ldImm 1 2 ≠ .ldVK x) ∧
    (∀ x kk, Instr.ldImm 1 2 ≠ .rnd x kk) :=
  ⟨by decide, fun _ => ⟨nofun, nofun, nofun⟩, fun _ _ => nofun⟩

theorem witness_StaleSlotsUnobservable :
    (∀ j : Fin 16, j.val < ({ State.reset with sp := 1 } : State).sp.val →
      (State.reset.stack.set 1 0x300)[j.val] = State.reset.stack[j.val]) ∧
    ∃ t, step (placed { State.reset with sp := 1 } .ret) = .next t := ⟨by decide, _, rfl⟩

/-- S2: a call at 0x200 and the return at its target. -/
def callThenReturn : State := withBytes .reset 0x200 [0x22, 0x06, 0x00, 0x00, 0x00, 0x00, 0x00, 0xEE]

theorem witness_CallReturnRoundTrip : ∃ t, nextInstr callThenReturn = some (.call 0x206) ∧ callThenReturn.sp.val < 16 ∧
    step callThenReturn = .next t ∧ nextInstr t = some .ret := ⟨_, by decide, by decide, rfl, by decide⟩

/-- `F015`, `F107`. -/
def setThenReadTimer : State := withBytes (regs [(0, 5)]) 0x200 [0xF0, 0x15, 0xF1, 0x07]

theorem witness_TimerReadBackIsOneLess : ∃ t, nextInstr setThenReadTimer = some (.ldDtV 0) ∧
    step setThenReadTimer = .next t ∧ nextInstr t = some (.ldVDt 1) := ⟨_, by decide, rfl, by decide⟩

/-- `F155` over the instruction after it, with the word `6A42` in `V0`, `V1`. -/
def storeOverNext : State := withBytes { regs [(0, 0x6A), (1, 0x42)] with i := 0x202 } 0x200 [0xF1, 0x55]

theorem witness_OverwrittenInstructionExecutes : ∃ t, Memory.wf storeOverNext.mem = true ∧
    nextInstr storeOverNext = some (.ldMemV 1) ∧ 1 ≤ (1#4 : Nibble).toNat ∧
    storeOverNext.i.toNat = storeOverNext.pc.toNat + 2 ∧ storeOverNext.i.toNat + (1#4 : Nibble).toNat ≤ 0xFFF ∧
    step storeOverNext = .next t ∧
    decode (wordOfBytes (readV storeOverNext 0#4) (readV storeOverNext 1#4)) = .ok (.ldImm 0xA 0x42) :=
  ⟨_, by decide, by decide, by decide, by decide, by decide, rfl, rfl⟩

/-- The highest `PC`, a stored byte, a pushed address and a recorded fault. -/
def edgeState : State :=
  raise { withBytes .reset 0xFFF [1] with pc := 0x10FE, stack := State.reset.stack.set 0 0xFFE }
    (boundsRecord 0x10FE none .fetch 0x10FE)

theorem witness_InvariantKept : MachineInv edgeState ∧ ∃ t, step edgeState = .next t := by
  refine ⟨⟨by decide, by decide, by decide, fun r h => ?_⟩, _, rfl⟩
  cases h
  decide

theorem witness_HostOperationsKeepInvariant :
    BlockInvariant .unreset ∧ BlockInvariant (.fresh edgeState) ∧ BlockInvariant (.booted edgeState) :=
  ⟨trivial, witness_InvariantKept.1, witness_InvariantKept.1⟩

theorem witness_LoadPlacesProgram : (List.replicate 3584 (0 : Byte)).length ≤ 3584 ∧ (0 : Nat) < [(0x12 : Byte)].length :=
  ⟨by rw [List.length_replicate], by decide⟩

theorem witness_LoadFailsOrIsRefused :
    3584 < (List.replicate 3585 (0 : Byte)).length ∧ ([0x12] : List Byte).length ≠ 2 ∧ HostOp.step 0 ≠ .reset :=
  ⟨by rw [List.length_replicate]; decide, by decide, nofun⟩

end Sys2Proof.Tests
end

namespace Sys2Proof

/-! ### The fields of a word as numbers (30_encoding.md R101) -/

section
variable (w : Word)

/-- A bit range of a word, read as a number: drop the bits below it, keep as many as it is long. -/
theorem bitRange_toNat (lo len : Nat) : (w.extractLsb' lo len).toNat = w.toNat / 2 ^ lo % 2 ^ len := by
  rw [BitVec.extractLsb'_toNat, Nat.shiftRight_eq_div_pow]

/-- The bits below `len` need no bits dropped. -/
theorem lowBits_toNat (len : Nat) : (w.extractLsb' 0 len).toNat = w.toNat % 2 ^ len := by
  rw [bitRange_toNat, Nat.pow_zero, Nat.div_one]

/-- The family is the top nibble, so nothing above it is left to cut off. -/
theorem famField_toNat : (famField w).toNat = w.toNat / 4096 := by
  have hw : w.toNat < 65536 := w.isLt
  calc (famField w).toNat = w.toNat / 4096 % 16 := bitRange_toNat w 12 4
    _ = w.toNat / 4096 := Nat.mod_eq_of_lt (by omega)

theorem xField_toNat : (xField w).toNat = w.toNat / 256 % 16 := bitRange_toNat w 8 4

theorem yField_toNat : (yField w).toNat = w.toNat / 16 % 16 := bitRange_toNat w 4 4

theorem nField_toNat : (nField w).toNat = w.toNat % 16 := lowBits_toNat w 4

theorem kkField_toNat : (kkField w).toNat = w.toNat % 256 := lowBits_toNat w 8

theorem nnnField_toNat : (nnnField w).toNat = w.toNat % 4096 := lowBits_toNat w 12

end

/-- Settles O1, field by field. -/
theorem wordFieldsAreBitRanges : Obligations.WordFieldsAreBitRanges := fun w =>
  ⟨famField_toNat w, xField_toNat w, yField_toNat w, nField_toNat w, kkField_toNat w, nnnField_toNat w⟩

end Sys2Proof

namespace Sys2Proof.Machine

/-! ### Where an instruction leaves `PC` (40_cycle.md R135, R136) -/

/-- What executing an instruction at `s` does to `PC`: it records a fault and changes nothing else, or it raises none
and leaves `PC` at `pc`. -/
def RaisesOrLeavesPc (s : State) (pc : Word) (t : State) : Prop :=
  (∃ r, t = raise s r) ∨ (t.fault = s.fault ∧ t.pc = pc)

section
variable {s t : State}

theorem accessing_raisesOrLeavesPc {word : Word} {kind : AccessKind} {len : Nat} {after : State} {pc : Word}
    (h : accessing s word kind len after = .next t) (hfault : after.fault = s.fault) (hpc : after.pc = pc) :
    RaisesOrLeavesPc s pc t := by
  obtain ⟨-, rfl⟩ | ⟨-, rfl⟩ := accessing_cases h
  · exact .inl ⟨_, rfl⟩
  · exact .inr ⟨hfault, hpc⟩

/-- Above 15 the list lookup of `pcAfter` reads its default, but there the key skip faults; below 16 both read the
key. -/
theorem keySkip_raisesOrLeavesPc {word : Word} {x : Nibble} {want : Bool} (h : keySkip word x want s = .next t) :
    RaisesOrLeavesPc s (if s.keys.toList.getD (readV s x).toNat false = want then s.pc + 4 else s.pc + 2) t := by
  unfold keySkip at h
  split at h <;> cases h
  case isTrue hlt => exact .inr ⟨rfl, by simp [List.getD, hlt]⟩
  case isFalse => exact .inl ⟨_, rfl⟩

theorem execRet_raisesOrLeavesPc (h : execRet s = .next t) : RaisesOrLeavesPc s (pcAfter s .ret) t := by
  unfold execRet at h
  split at h <;> cases h
  · exact .inl ⟨_, rfl⟩
  · exact .inr ⟨rfl, rfl⟩

theorem execCall_raisesOrLeavesPc {nnn : Addr12} (h : execCall nnn s = .next t) :
    RaisesOrLeavesPc s (pcAfter s (.call nnn)) t := by
  unfold execCall at h
  split at h <;> cases h
  · exact .inr ⟨rfl, rfl⟩
  · exact .inl ⟨_, rfl⟩

theorem execLdVK_raisesOrLeavesPc {x : Nibble} (h : execLdVK x s = .next t) :
    RaisesOrLeavesPc s (pcAfter s (.ldVK x)) t := by
  unfold execLdVK at h
  split at h <;> cases h <;> exact .inr ⟨rfl, rfl⟩

/-- The PC-advance table, instruction by instruction: the instructions with a check of their own by their lemmas above,
the four register skips by their condition, and every other one by its last update, `advance` or `jump`. -/
theorem exec_raisesOrLeavesPc {ins : Instr} (h : exec ins s = .next t) : RaisesOrLeavesPc s (pcAfter s ins) t := by
  cases ins
  case ret => exact execRet_raisesOrLeavesPc h
  case call => exact execCall_raisesOrLeavesPc h
  case skp | sknp => exact keySkip_raisesOrLeavesPc h
  case ldVK => exact execLdVK_raisesOrLeavesPc h
  case drw | ldBV | ldMemV | ldVMem => exact accessing_raisesOrLeavesPc h rfl rfl
  case seImm | sneImm | seReg | sneReg => cases h; exact .inr ⟨rfl, by simp [pcAfter]⟩
  all_goals cases h; exact .inr ⟨rfl, rfl⟩

/-- The next `PC` does not depend on the draw flag, which the cycle clears first. -/
@[simp] theorem pcAfter_clearDraw (s : State) (ins : Instr) : pcAfter (clearDraw s) ins = pcAfter s ins := rfl

/-- A completed cycle is its instruction executed with `draw` cleared, then the timers. -/
theorem Completes.exec_then_tick {ins : Instr} (h : Completes s ins t) :
    ∃ u, exec ins (clearDraw s) = .next u ∧ u.fault = none ∧ t = tickTimers u := by
  obtain ⟨hins, hstep, hfault⟩ := h
  obtain ⟨u, hu⟩ := exec_next ins (clearDraw s)
  rw [step_of_nextInstr hins, hu] at hstep
  cases hstep
  cases hf : u.fault with
  | none => exact ⟨u, hu, hf, by simp⟩
  | some r => simp [hf] at hfault

theorem Completes.pc {ins : Instr} (h : Completes s ins t) : t.pc = pcAfter s ins := by
  obtain ⟨u, hu, hfault, rfl⟩ := h.exec_then_tick
  obtain ⟨r, rfl⟩ | ⟨-, hpc⟩ := exec_raisesOrLeavesPc hu
  · simp at hfault
  · simpa using hpc

/-- A cycle that ends with a fault recorded was halted, or raised the fault in fetch, decode or execute; none of them
moves `PC`. -/
theorem step_pc_of_fault (h : step s = .next t) (hfault : t.fault ≠ none) : t.pc = s.pc := by
  obtain ⟨-, rfl⟩ | ⟨-, r, -, rfl⟩ | ⟨-, w, e, -, -, rfl⟩ | ⟨ins, u, hins, hu, rfl⟩ := step_cases h
  case inl => rfl
  case inr.inl => rfl
  case inr.inr.inl => rfl
  case inr.inr.inr =>
    obtain ⟨r, rfl⟩ | ⟨hkept, -⟩ := exec_raisesOrLeavesPc hu
    · simp
    · have hnone : u.fault = none := hkept.trans (nextInstr_eq_some.mp hins).1
      simp [hnone] at hfault

end

end Sys2Proof.Machine

namespace Sys2Proof

/-- Settles O40: the table of R136 on completed cycles, and R135 on faulting ones. -/
theorem pcAdvancePolicy : Obligations.PcAdvancePolicy :=
  ⟨fun _ _ _ => Machine.Completes.pc, fun _ _ => Machine.step_pc_of_fault⟩

end Sys2Proof

namespace Sys2Proof

/-! ### Decoding families 0 and 1 (30_encoding.md R103) -/

section
variable {w : Word}

theorem decode_of_family0 (h : famField w = 0x0#4) : decode w = .ok (decodeFamily0 w) := by
  simp [decode, h]

theorem decode_of_family1 (h : famField w = 0x1#4) : decode w = .ok (.jp (nnnField w)) := by
  simp [decode, h]

/-- Family 0 without its two specific rows is `0nnn`. -/
theorem decodeFamily0_of_ne (hcls : w ≠ 0x00E0#16) (hret : w ≠ 0x00EE#16) :
    decodeFamily0 w = .sys (nnnField w) := by
  rw [decodeFamily0, if_neg hcls, if_neg hret]

end

end Sys2Proof

namespace Sys2Proof.Machine

/-! ### Frames of instructions that move `PC` (41_family_0_1_2.md R152, R153) -/

section
variable {l : List StatePart} {s t : State}

theorem Unchanged.refl (l : List StatePart) (s : State) : Unchanged l s s := by
  simp [Unchanged]

/-- Where `PC` is listed, moving it keeps the frame. -/
theorem Unchanged.jump (h : Unchanged l s t) (hpc : .pc ∈ l) (a : Word) : Unchanged l s (jump t a) := by
  obtain ⟨hmem, hv, hi, -, hrest⟩ := h
  exact ⟨hmem, hv, hi, absurd hpc, hrest⟩

/-- `PC <- PC + 2` is a jump to the next word. -/
theorem Unchanged.advance (h : Unchanged l s t) (hpc : .pc ∈ l) : Unchanged l s (advance t) :=
  h.jump hpc (t.pc + 2)

end

/-- Zero-extension keeps the number. -/
theorem target_toNat (nnn : Addr12) : (target nnn).toNat = nnn.toNat :=
  BitVec.toNat_setWidth_of_le (by decide)

theorem exec_sys (nnn : Addr12) (s : State) : exec (.sys nnn) s = .next (advance s) := rfl

theorem exec_jp (nnn : Addr12) (s : State) : exec (.jp nnn) s = .next (jump s (target nnn)) := rfl

end Sys2Proof.Machine

namespace Sys2Proof

open Machine

/-- Settles O11: the two decode clauses by family, and each instruction as its one update of `PC`. -/
theorem noOpAndJump : Obligations.NoOpAndJump := by
  refine ⟨fun w hfam hcls hret => ?_, fun w hfam => decode_of_family1 hfam, fun s nnn => ⟨?_, ?_⟩⟩
  · rw [decode_of_family0 hfam, decodeFamily0_of_ne hcls hret]
  · exact ⟨advance s, exec_sys nnn s, advance_pc s, (Unchanged.refl _ s).advance (by decide)⟩
  · exact ⟨jump s (target nnn), exec_jp nnn s, target_toNat nnn, (Unchanged.refl _ s).jump (by decide) _⟩

end Sys2Proof

namespace Sys2Proof

/-! ### Decoding families 3, 4, 6 and 7 (30_encoding.md R103) -/

section
variable {w : Word}

theorem decode_of_family3 (h : famField w = 0x3#4) : decode w = .ok (.seImm (xField w) (kkField w)) := by
  simp [decode, h]

theorem decode_of_family4 (h : famField w = 0x4#4) : decode w = .ok (.sneImm (xField w) (kkField w)) := by
  simp [decode, h]

theorem decode_of_family6 (h : famField w = 0x6#4) : decode w = .ok (.ldImm (xField w) (kkField w)) := by
  simp [decode, h]

theorem decode_of_family7 (h : famField w = 0x7#4) : decode w = .ok (.addImm (xField w) (kkField w)) := by
  simp [decode, h]

end

end Sys2Proof

namespace Sys2Proof.Machine

/-! ### Skips, and writes of one register (42_family_3_to_7.md R170, R171, R173, R174) -/

section
variable {l : List StatePart} {s t : State}

/-- A skip is a jump, whichever way its condition goes. -/
theorem Unchanged.skipIf (h : Unchanged l s t) (hpc : .pc ∈ l) (c : Bool) : Unchanged l s (skipIf c t) :=
  h.jump hpc (if c then t.pc + 4 else t.pc + 2)

/-- Where `V` is listed, writing a register keeps the frame. -/
theorem Unchanged.writeV (h : Unchanged l s t) (hv : .v ∈ l) (x : Nibble) (b : Byte) :
    Unchanged l s (writeV t x b) := by
  obtain ⟨hmem, -, hrest⟩ := h
  exact ⟨hmem, absurd hv, hrest⟩

end

section
variable (s : State) (x : Nibble) (kk : Byte)

theorem exec_seImm : exec (.seImm x kk) s = .next (skipIf (readV s x == kk) s) := rfl

theorem exec_sneImm : exec (.sneImm x kk) s = .next (skipIf (readV s x != kk) s) := rfl

theorem exec_ldImm : exec (.ldImm x kk) s = .next (advance (writeV s x kk)) := rfl

theorem exec_addImm : exec (.addImm x kk) s = .next (advance (writeV s x (readV s x + kk))) := rfl

end

/-- The effect and the frame of an instruction that writes `V[x]` and goes on to the next word. -/
theorem advance_writeV_effect (s : State) (x : Nibble) (b : Byte) :
    readV (advance (writeV s x b)) x = b ∧
    (∀ z, z ≠ x → readV (advance (writeV s x b)) z = readV s z) ∧
    (advance (writeV s x b)).pc = s.pc + 2 ∧
    Unchanged [.v, .pc] s (advance (writeV s x b)) :=
  ⟨readV_writeV_same s x b, fun _ hz => readV_writeV_ne s b hz, rfl,
    ((Unchanged.refl _ s).writeV (by decide) x b).advance (by decide)⟩

end Sys2Proof.Machine

namespace Sys2Proof

open Machine

/-- Settles O13: the two decode clauses by family, and each instruction as a skip on its own condition. -/
theorem skipOnByte : Obligations.SkipOnByte := by
  refine ⟨fun w => decode_of_family3, fun w => decode_of_family4, fun s x kk => ⟨?_, ?_⟩⟩
  · exact ⟨_, exec_seImm s x kk, by simp, (Unchanged.refl _ s).skipIf (by decide) _⟩
  · exact ⟨_, exec_sneImm s x kk, by simp, (Unchanged.refl _ s).skipIf (by decide) _⟩

/-- Settles O15: the two decode clauses by family, and each instruction as one register write; the sum of two bytes is
modulo 256. -/
theorem immediateLoadAndAdd : Obligations.ImmediateLoadAndAdd := by
  refine ⟨fun w => decode_of_family6, fun w => decode_of_family7, fun s x kk => ⟨?_, ?_⟩⟩
  · exact ⟨_, exec_ldImm s x kk, advance_writeV_effect s x kk⟩
  · obtain ⟨hx, hframe⟩ := advance_writeV_effect s x (readV s x + kk)
    have hsum : (readV s x + kk).toNat = ((readV s x).toNat + kk.toNat) % 256 := BitVec.toNat_add ..
    exact ⟨_, exec_addImm s x kk, by rw [hx, hsum], hframe⟩

end Sys2Proof

namespace Sys2Proof

/-! ### Decoding family 8 (30_encoding.md R103) -/

section
variable {w : Word}

theorem decode_of_family8 (h : famField w = 0x8#4) : decode w = decodeFamily8 w := by
  simp [decode, h]

theorem decodeFamily8_of_n0 (h : nField w = 0x0#4) : decodeFamily8 w = .ok (.ldReg (xField w) (yField w)) := by
  simp [decodeFamily8, h]

theorem decodeFamily8_of_n1 (h : nField w = 0x1#4) : decodeFamily8 w = .ok (.orReg (xField w) (yField w)) := by
  simp [decodeFamily8, h]

theorem decodeFamily8_of_n2 (h : nField w = 0x2#4) : decodeFamily8 w = .ok (.andReg (xField w) (yField w)) := by
  simp [decodeFamily8, h]

theorem decodeFamily8_of_n3 (h : nField w = 0x3#4) : decodeFamily8 w = .ok (.xorReg (xField w) (yField w)) := by
  simp [decodeFamily8, h]

end

end Sys2Proof

namespace Sys2Proof.Machine

/-! ### Copy and bitwise operations as one register write (43_family_8.md R190 to R193) -/

section
variable (s : State) (x y : Nibble)

theorem exec_ldReg : exec (.ldReg x y) s = .next (advance (writeV s x (readV s y))) := rfl

theorem exec_orReg : exec (.orReg x y) s = .next (advance (writeV s x (readV s x ||| readV s y))) := rfl

theorem exec_andReg : exec (.andReg x y) s = .next (advance (writeV s x (readV s x &&& readV s y))) := rfl

theorem exec_xorReg : exec (.xorReg x y) s = .next (advance (writeV s x (readV s x ^^^ readV s y))) := rfl

end

end Sys2Proof.Machine

namespace Sys2Proof

open Machine

/-- Settles O16: the four decode clauses by `n`, and each instruction as one write of `V[x]`, so that `VF` keeps its
value unless `x` is 15. -/
theorem copyAndBitwise : Obligations.CopyAndBitwise := by
  refine ⟨fun w hfam => ?_, fun s x y p hp => ?_⟩
  · rw [decode_of_family8 hfam]
    exact ⟨decodeFamily8_of_n0, decodeFamily8_of_n1, decodeFamily8_of_n2, decodeFamily8_of_n3⟩
  · have hexec : exec p.1 s = .next (advance (writeV s x p.2)) := by
      simp only [List.mem_cons, List.not_mem_nil, or_false] at hp
      obtain rfl | rfl | rfl | rfl := hp
      · exact exec_ldReg s x y
      · exact exec_orReg s x y
      · exact exec_andReg s x y
      · exact exec_xorReg s x y
    exact ⟨_, hexec, advance_writeV_effect s x p.2⟩

end Sys2Proof

namespace Sys2Proof

/-! ### Decoding families A, B and F (30_encoding.md R103) -/

section
variable {w : Word}

theorem decode_of_familyA (h : famField w = 0xA#4) : decode w = .ok (.ldI (nnnField w)) := by
  simp [decode, h]

theorem decode_of_familyB (h : famField w = 0xB#4) : decode w = .ok (.jpV0 (nnnField w)) := by
  simp [decode, h]

theorem decode_of_familyF (h : famField w = 0xF#4) : decode w = decodeFamilyF w := by
  simp [decode, h]

theorem decodeFamilyF_of_kk29 (h : kkField w = 0x29#8) : decodeFamilyF w = .ok (.ldFV (xField w)) := by
  simp [decodeFamilyF, h]

end

end Sys2Proof

namespace Sys2Proof.Machine

/-! ### Index loads and the jump with offset (44_family_9_to_C.md R211, R212; 47_family_F.md R265) -/

/-- Where `I` is listed, setting it keeps the frame. -/
theorem Unchanged.setI {l : List StatePart} {s t : State} (h : Unchanged l s t) (hi : .i ∈ l) (a : Word) :
    Unchanged l s (setI t a) := by
  obtain ⟨hmem, hv, -, hrest⟩ := h
  exact ⟨hmem, hv, absurd hi, hrest⟩

/-- The frame of an instruction that sets `I` and goes on to the next word. -/
theorem advance_setI_unchanged (s : State) (a : Word) : Unchanged [.i, .pc] s (advance (setI s a)) :=
  ((Unchanged.refl _ s).setI (by decide) a).advance (by decide)

/-- Zero-extension keeps the number. -/
theorem wide_toNat (b : Byte) : (wide b).toNat = b.toNat :=
  BitVec.toNat_setWidth_of_le (by decide)

/-- The highest glyph address, `0x050 + 5 * 255`, still fits a word, so nothing is cut off. -/
theorem glyphAddress_toNat (b : Byte) : (glyphAddress b).toNat = 0x050 + 5 * b.toNat := by
  have hb : b.toNat < 256 := b.isLt
  calc (glyphAddress b).toNat = (0x050 + 5 * b.toNat) % 65536 := BitVec.toNat_ofNat ..
    _ = 0x050 + 5 * b.toNat := Nat.mod_eq_of_lt (by omega)

theorem offsetTarget_toNat (s : State) (nnn : Addr12) :
    (offsetTarget s nnn).toNat = (nnn.toNat + (readV s 0#4).toNat) % 65536 := by
  rw [offsetTarget, BitVec.toNat_add, target_toNat, wide_toNat]

section
variable (s : State) (nnn : Addr12) (x : Nibble)

theorem exec_ldI : exec (.ldI nnn) s = .next (advance (setI s (target nnn))) := rfl

theorem exec_ldFV : exec (.ldFV x) s = .next (advance (setI s (glyphAddress (readV s x)))) := rfl

theorem exec_jpV0 : exec (.jpV0 nnn) s = .next (jump s (offsetTarget s nnn)) := rfl

end

end Sys2Proof.Machine

namespace Sys2Proof

open Machine

/-- Settles O20: the two decode clauses by family, and each instruction as one write of `I` with an address that fits a
word. -/
theorem indexLoads : Obligations.IndexLoads := by
  refine ⟨fun w => decode_of_familyA, fun w hfam hkk => ?_, fun s nnn x => ⟨?_, ?_⟩⟩
  · rw [decode_of_familyF hfam, decodeFamilyF_of_kk29 hkk]
  · exact ⟨_, exec_ldI s nnn, target_toNat nnn, rfl, advance_setI_unchanged s _⟩
  · exact ⟨_, exec_ldFV s x, glyphAddress_toNat (readV s x), rfl, advance_setI_unchanged s _⟩

/-- Settles O22: the decode clause by family, and the instruction as a jump to the sum. -/
theorem jumpWithOffset : Obligations.JumpWithOffset :=
  ⟨fun _ => decode_of_familyB, fun s nnn =>
    ⟨_, exec_jpV0 s nnn, offsetTarget_toNat s nnn, (Unchanged.refl _ s).jump (by decide) _⟩⟩

end Sys2Proof

namespace Sys2Proof.Machine

/-! ### The Program Loader (70_reset_and_hazards.md R353) -/

/-- Where memory is listed, replacing it keeps the frame. -/
theorem Unchanged.setMem {l : List StatePart} {s t : State} (h : Unchanged l s t) (hmem : .mem ∈ l) (m : Memory) :
    Unchanged l s { t with mem := m } := by
  obtain ⟨-, hrest⟩ := h
  exact ⟨absurd hmem, hrest⟩

/-- All the bytes asked for are there and they fit, so the loader writes them. -/
theorem loadRom_of_fits {data : List Byte} (h : data.length ≤ Config.maxRom) (s : State) :
    loadRom (.bytes data.length data) s = .ok { s with mem := Memory.writeBytes s.mem Config.loadBase data } :=
  if_pos ⟨rfl, h⟩

/-- The largest program ends with the last byte of memory. -/
theorem loadBase_add_maxRom : Config.loadBase + Config.maxRom = Config.memSize := rfl

/-- Reset lists no byte of memory. -/
theorem wf_reset_mem : Memory.wf State.reset.mem = true := rfl

end Sys2Proof.Machine

namespace Sys2Proof

open Machine

/-- Settles O54: a load is one write of the bytes at 0x200, and they fit in memory, so they read back there and only
there. That every such length is accepted is also R355 (the spec's decision D19). -/
theorem loadPlacesProgram : Obligations.LoadPlacesProgram := by
  intro data hlen
  have hfit : Config.loadBase + data.length ≤ Config.memSize := by
    rw [← loadBase_add_maxRom]
    exact Nat.add_le_add_left hlen _
  refine ⟨_, loadRom_of_fits hlen State.reset, fun k hk => ?inside, fun a ha => ?outside, ?frame⟩
  case inside => exact read_writeBytes_inside wf_reset_mem Config.loadBase data hfit hk
  case outside => exact read_writeBytes_outside State.reset.mem Config.loadBase data ha
  case frame => exact (Unchanged.refl _ State.reset).setMem (by decide) _

end Sys2Proof

namespace Sys2Proof

/-! ### Decoding and encoding are inverse (30_encoding.md §2) -/

/-- The word of `0nnn` is neither of the two specific words of family 0, which have their own `nnn`. -/
theorem decodeFamily0_wordNnn {nnn : Addr12} (h : (Instr.sys nnn).wf = true) :
    decodeFamily0 (wordNnn 0 nnn) = .sys nnn := by
  obtain ⟨hcls, hret⟩ : nnn ≠ 0x0E0#12 ∧ nnn ≠ 0x0EE#12 := by simpa [Instr.wf] using h
  rw [decodeFamily0_of_ne, nnnField_wordNnn]
  · exact fun e => hcls (by rw [← nnnField_wordNnn 0 nnn, e]; rfl)
  · exact fun e => hret (by rw [← nnnField_wordNnn 0 nnn, e]; rfl)

/-- The decoder reads back the fields the encoder wrote: by family, and in families 8, E and F by the field that names
the row. -/
theorem decode_encode {ins : Instr} (h : ins.wf = true) : decode (encode ins) = .ok ins := by
  cases ins
  case cls | ret => rfl
  case sys nnn =>
    exact (decode_of_family0 (famField_wordNnn ..)).trans (congrArg Except.ok (decodeFamily0_wordNnn h))
  case ldReg | orReg | andReg | xorReg | addReg | sub | shr | subn | shl => simp [encode, decode, decodeFamily8]
  case skp | sknp => simp [encode, decode, decodeFamilyE]
  case ldVDt | ldVK | ldDtV | ldStV | addIV | ldFV | ldBV | ldMemV | ldVMem => simp [encode, decode, decodeFamilyF]
  all_goals simp [encode, decode]

/-- Settles O2: field by field, as the encoder wrote them. -/
theorem decodeOfEncode : Obligations.DecodeOfEncode := fun _ => decode_encode

section
variable {w : Word}

theorem wordNnn_of_famField {f : Nibble} (h : famField w = f) : wordNnn f (nnnField w) = w := by
  rw [← h, wordNnn_fields]

theorem wordXkk_of_famField {f : Nibble} (h : famField w = f) : wordXkk f (xField w) (kkField w) = w := by
  rw [← h, wordXkk_fields]

theorem wordXyn_of_famField {f : Nibble} (h : famField w = f) :
    wordXyn f (xField w) (yField w) (nField w) = w := by
  rw [← h, wordXyn_fields]

theorem wordXyn_of_nField {f n : Nibble} (h : famField w = f) (hn : nField w = n) :
    wordXyn f (xField w) (yField w) n = w := by
  rw [← hn, wordXyn_of_famField h]

theorem wordXkk_of_kkField {f : Nibble} {kk : Byte} (h : famField w = f) (hkk : kkField w = kk) :
    wordXkk f (xField w) kk = w := by
  rw [← hkk, wordXkk_of_famField h]

/-- The last row of family 0 is reached only by words other than the two specific ones. -/
theorem encode_decodeFamily0 (hf : famField w = 0x0#4) :
    encode (decodeFamily0 w) = w ∧ (decodeFamily0 w).wf = true := by
  unfold decodeFamily0
  split
  case isTrue h => exact ⟨h.symm, rfl⟩
  case isFalse hcls =>
    split
    case isTrue h => exact ⟨h.symm, rfl⟩
    case isFalse hret =>
      have hw : wordNnn 0 (nnnField w) = w := wordNnn_of_famField hf
      have hne : nnnField w ≠ 0x0E0#12 ∧ nnnField w ≠ 0x0EE#12 :=
        ⟨fun e => hcls (by rw [← hw, e]; rfl), fun e => hret (by rw [← hw, e]; rfl)⟩
      exact ⟨hw, by simpa [Instr.wf] using hne⟩

theorem encode_of_decodeFamily8 {ins : Instr} (hf : famField w = 0x8#4) (h : decodeFamily8 w = .ok ins) :
    encode ins = w ∧ ins.wf = true := by
  unfold decodeFamily8 at h
  split at h <;> cases h
  all_goals exact ⟨wordXyn_of_nField hf (eq_ofNat_of_toNat ‹_›), rfl⟩

theorem encode_of_decodeFamilyE {ins : Instr} (hf : famField w = 0xE#4) (h : decodeFamilyE w = .ok ins) :
    encode ins = w ∧ ins.wf = true := by
  unfold decodeFamilyE at h
  split at h <;> cases h
  all_goals exact ⟨wordXkk_of_kkField hf (eq_ofNat_of_toNat ‹_›), rfl⟩

theorem encode_of_decodeFamilyF {ins : Instr} (hf : famField w = 0xF#4) (h : decodeFamilyF w = .ok ins) :
    encode ins = w ∧ ins.wf = true := by
  unfold decodeFamilyF at h
  split at h <;> cases h
  all_goals exact ⟨wordXkk_of_kkField hf (eq_ofNat_of_toNat ‹_›), rfl⟩

/-- A word that decodes is put together again from the fields its family's row keeps and those the row fixes. -/
theorem encode_of_decode {ins : Instr} (h : decode w = .ok ins) : encode ins = w ∧ ins.wf = true := by
  unfold decode at h
  split at h <;> rename_i hf
  case h_1 => cases h; exact encode_decodeFamily0 (eq_ofNat_of_toNat hf)
  case h_2 | h_3 | h_11 | h_12 => cases h; exact ⟨wordNnn_of_famField (eq_ofNat_of_toNat hf), rfl⟩
  case h_4 | h_5 | h_7 | h_8 | h_13 => cases h; exact ⟨wordXkk_of_famField (eq_ofNat_of_toNat hf), rfl⟩
  case h_6 | h_10 =>
    split at h <;> cases h
    exact ⟨wordXyn_of_nField (eq_ofNat_of_toNat hf) ‹_›, rfl⟩
  case h_9 => exact encode_of_decodeFamily8 (eq_ofNat_of_toNat hf) h
  case h_14 => cases h; exact ⟨wordXyn_of_famField (eq_ofNat_of_toNat hf), rfl⟩
  case h_15 => exact encode_of_decodeFamilyE (eq_ofNat_of_toNat hf) h
  case h_16 => exact encode_of_decodeFamilyF (eq_ofNat_of_toNat hf) h
  case h_17 => cases h

end

/-- Settles O3: a word is put together again from the fields its row keeps and fixes. -/
theorem encodeOfDecode : Obligations.EncodeOfDecode := fun _ _ => encode_of_decode

/-- Settles O6: each of the eight words is the encoding of its instruction. -/
theorem sampleWordsDecode : Obligations.SampleWordsDecode :=
  ⟨decode_encode (ins := .ret) rfl, decode_encode (ins := .sys 0x123) rfl, decode_encode (ins := .call 0xABC) rfl,
    decode_encode (ins := .seImm 0xA 0x42) rfl, decode_encode (ins := .subn 1 2) rfl,
    decode_encode (ins := .drw 5 6 0xF) rfl, decode_encode (ins := .skp 4) rfl, decode_encode (ins := .ldMemV 7) rfl⟩

end Sys2Proof

namespace Sys2Proof

/-! ### The illegal words (30_encoding.md R106) -/

section
variable {w : Word}

theorem decodeFamily8_error_iff : (∃ e, decodeFamily8 w = .error e) ↔
    (nField w).toNat ∈ [0x8, 0x9, 0xA, 0xB, 0xC, 0xD, 0xF] := by
  have hn : (nField w).toNat < 16 := (nField w).isLt
  unfold decodeFamily8
  split <;> simp_all
  omega

theorem decodeFamilyE_error_iff : (∃ e, decodeFamilyE w = .error e) ↔ (kkField w).toNat ∉ [0x9E, 0xA1] := by
  unfold decodeFamilyE
  split <;> simp_all

theorem decodeFamilyF_error_iff : (∃ e, decodeFamilyF w = .error e) ↔
    (kkField w).toNat ∉ [0x07, 0x0A, 0x15, 0x18, 0x1E, 0x29, 0x33, 0x55, 0x65] := by
  unfold decodeFamilyF
  split <;> simp_all

end

/-- Settles O5: family by family; only 5, 8, 9, E and F have words without a row. -/
theorem illegalWordsExactly : Obligations.IllegalWordsExactly := by
  intro w
  have hf : (famField w).toNat < 16 := (famField w).isLt
  unfold decode
  split <;> rename_i hfam
  case h_17 => grind
  all_goals replace hfam := eq_ofNat_of_toNat hfam
  case h_6 | h_10 => split <;> simp_all
  case h_9 => simp [hfam, decodeFamily8_error_iff]
  case h_15 => simp [hfam, decodeFamilyE_error_iff]
  case h_16 => simp [hfam, decodeFamilyF_error_iff]
  all_goals simp [hfam]

/-! ### The decoder and the opcode table (30_encoding.md R104) -/

/-- The row of an instruction selects its word. -/
theorem selects_encode (ins : Instr) : (rowOf ins).selects (encode ins) = true := by
  cases ins
  case cls => exact Laws.OpcodeRow.cls
  case ret => exact Laws.OpcodeRow.ret
  case sys => exact Laws.OpcodeRow.sys _
  case jp => exact Laws.OpcodeRow.jp _
  case call => exact Laws.OpcodeRow.call _
  case seImm => exact Laws.OpcodeRow.seImm _ _
  case sneImm => exact Laws.OpcodeRow.sneImm _ _
  case seReg => exact Laws.OpcodeRow.seReg _ _
  case ldImm => exact Laws.OpcodeRow.ldImm _ _
  case addImm => exact Laws.OpcodeRow.addImm _ _
  case ldReg => exact Laws.OpcodeRow.ldReg _ _
  case orReg => exact Laws.OpcodeRow.orReg _ _
  case andReg => exact Laws.OpcodeRow.andReg _ _
  case xorReg => exact Laws.OpcodeRow.xorReg _ _
  case addReg => exact Laws.OpcodeRow.addReg _ _
  case sub => exact Laws.OpcodeRow.sub _ _
  case shr => exact Laws.OpcodeRow.shr _ _
  case subn => exact Laws.OpcodeRow.subn _ _
  case shl => exact Laws.OpcodeRow.shl _ _
  case sneReg => exact Laws.OpcodeRow.sneReg _ _
  case ldI => exact Laws.OpcodeRow.ldI _
  case jpV0 => exact Laws.OpcodeRow.jpV0 _
  case rnd => exact Laws.OpcodeRow.rnd _ _
  case drw => exact Laws.OpcodeRow.drw _ _ _
  case skp => exact Laws.OpcodeRow.skp _
  case sknp => exact Laws.OpcodeRow.sknp _
  case ldVDt => exact Laws.OpcodeRow.ldVDt _
  case ldVK => exact Laws.OpcodeRow.ldVK _
  case ldDtV => exact Laws.OpcodeRow.ldDtV _
  case ldStV => exact Laws.OpcodeRow.ldStV _
  case addIV => exact Laws.OpcodeRow.addIV _
  case ldFV => exact Laws.OpcodeRow.ldFV _
  case ldBV => exact Laws.OpcodeRow.ldBV _
  case ldMemV => exact Laws.OpcodeRow.ldMemV _
  case ldVMem => exact Laws.OpcodeRow.ldVMem _

/-- A row selects two words: they agree on every bit range its mask keeps. -/
theorem field_eq_of_selects {row : OpcodeRow} {w w' : Word} (h : row.selects w = true) (h' : row.selects w' = true)
    {lo len : Nat} (hmask : row.mask.extractLsb' lo len = BitVec.allOnes len) :
    w.extractLsb' lo len = w'.extractLsb' lo len := by
  have hand : w &&& row.mask = w' &&& row.mask := (beq_iff_eq.mp h).trans (beq_iff_eq.mp h').symm
  have := congrArg (BitVec.extractLsb' lo len) hand
  simpa only [BitVec.extractLsb'_and, hmask, BitVec.and_allOnes] using this

section
variable {w : Word} {ins : Instr}

/-- Every row fixes the family. -/
theorem famField_of_selects (h : (rowOf ins).selects w = true) : famField w = famField (encode ins) :=
  field_eq_of_selects h (selects_encode ins) (by cases ins <;> simp [rowOf])

theorem nField_of_selects (h : (rowOf ins).selects w = true) (hmask : (rowOf ins).mask = 0xF00F#16) :
    nField w = nField (encode ins) :=
  field_eq_of_selects h (selects_encode ins) (by rw [hmask]; decide)

theorem kkField_of_selects (h : (rowOf ins).selects w = true) (hmask : (rowOf ins).mask = 0xF0FF#16) :
    kkField w = kkField (encode ins) :=
  field_eq_of_selects h (selects_encode ins) (by rw [hmask]; decide)

theorem eq_encode_of_selects (h : (rowOf ins).selects w = true) (hmask : (rowOf ins).mask = 0xFFFF#16) :
    w = encode ins := by
  have := field_eq_of_selects h (selects_encode ins) (lo := 0) (len := 16) (by rw [hmask]; decide)
  rwa [BitVec.extractLsb'_eq_self, BitVec.extractLsb'_eq_self] at this

/-- A word that a row selects decodes to an instruction of that row, or it is one of the two words of family 0 that
have a row before `0nnn`'s. -/
theorem decode_of_selects (h : (rowOf ins).selects w = true) :
    (∃ i, decode w = .ok i ∧ rowOf i = rowOf ins) ∨
    (rowOf ins = rowOf (.sys 0) ∧ (w = encode .cls ∨ w = encode .ret)) := by
  have hf := famField_of_selects h
  cases ins
  case cls => exact .inl ⟨.cls, by rw [eq_encode_of_selects h rfl]; rfl, rfl⟩
  case ret => exact .inl ⟨.ret, by rw [eq_encode_of_selects h rfl]; rfl, rfl⟩
  case sys nnn =>
    by_cases hw : w = encode .cls ∨ w = encode .ret
    · exact .inr ⟨rfl, hw⟩
    · obtain ⟨hcls, hret⟩ := not_or.mp hw
      have hf0 : famField w = 0x0#4 := hf.trans (famField_wordNnn ..)
      exact .inl ⟨.sys (nnnField w), by rw [decode_of_family0 hf0, decodeFamily0_of_ne hcls hret], rfl⟩
  case seReg | sneReg => exact .inl (by simp [decode, hf, nField_of_selects h rfl, encode, rowOf])
  case ldReg | orReg | andReg | xorReg | addReg | sub | shr | subn | shl =>
    exact .inl (by simp [decode, decodeFamily8, hf, nField_of_selects h rfl, encode, rowOf])
  case skp | sknp => exact .inl (by simp [decode, decodeFamilyE, hf, kkField_of_selects h rfl, encode, rowOf])
  case ldVDt | ldVK | ldDtV | ldStV | addIV | ldFV | ldBV | ldMemV | ldVMem =>
    exact .inl (by simp [decode, decodeFamilyF, hf, kkField_of_selects h rfl, encode, rowOf])
  all_goals exact .inl (by simp [decode, hf, encode, rowOf])

end

/-- The table holds the row of every instruction, and no other row. -/
theorem mem_opcodeTable {row : OpcodeRow} : row ∈ opcodeTable ↔ ∃ ins, row = rowOf ins := by
  constructor
  · intro h
    obtain ⟨ins, -, rfl⟩ := List.mem_map.mp h
    exact ⟨ins, rfl⟩
  · rintro ⟨ins, rfl⟩
    cases ins <;> simp [opcodeTable, oneOfEachRow, rowOf]

/-- Two rows select one word only if one of them is `0nnn`'s. -/
theorem rowOf_unique {w : Word} {i j : Instr} (hi : (rowOf i).selects w = true) (hj : (rowOf j).selects w = true) :
    rowOf i = rowOf j ∨ rowOf i = rowOf (.sys 0) ∨ rowOf j = rowOf (.sys 0) := by
  obtain ⟨i', hi', hri⟩ | ⟨hi', -⟩ := decode_of_selects hi
  case inr => exact .inr (.inl hi')
  obtain ⟨j', hj', hrj⟩ | ⟨hj', -⟩ := decode_of_selects hj
  case inr => exact .inr (.inr hj')
  have hij : i' = j' := Except.ok.inj (hi'.symm.trans hj')
  exact .inl (by rw [← hri, ← hrj, hij])

/-- The first row that selects a word which decodes is its instruction's: another row is `0nnn`'s and the word one of
the two words of family 0 with an earlier row. -/
theorem find_opcodeTable_of_decode {w : Word} {ins : Instr} (h : decode w = .ok ins) :
    opcodeTable.find? (fun row => row.selects w) = some (rowOf ins) := by
  obtain ⟨rfl, -⟩ := encode_of_decode h
  cases hfind : opcodeTable.find? (fun row => row.selects (encode ins)) with
  | none =>
    have := List.find?_eq_none.mp hfind _ (mem_opcodeTable.mpr ⟨ins, rfl⟩)
    exact absurd (selects_encode ins) this
  | some row =>
    obtain ⟨j, rfl⟩ := mem_opcodeTable.mp (List.mem_of_find?_eq_some hfind)
    obtain ⟨i, hi, hrow⟩ | ⟨-, hw⟩ := decode_of_selects (by simpa using List.find?_some hfind)
    · rw [h] at hi
      cases hi
      rw [hrow]
    · obtain rfl | rfl : ins = .cls ∨ ins = .ret := by
        obtain hw | hw := hw <;> rw [hw] at h <;> cases h
        · exact .inl rfl
        · exact .inr rfl
      · exact hfind.symm.trans rfl
      · exact hfind.symm.trans rfl

/-- No row selects a word that does not decode. -/
theorem find_opcodeTable_of_illegal {w : Word} {e : DecodeError} (h : decode w = .error e) :
    opcodeTable.find? (fun row => row.selects w) = none := by
  rw [List.find?_eq_none]
  intro row hrow hsel
  obtain ⟨i, rfl⟩ := mem_opcodeTable.mp hrow
  obtain ⟨j, hj, -⟩ | ⟨-, rfl | rfl⟩ := decode_of_selects hsel
  · rw [h] at hj
    cases hj
  · cases h
  · cases h

/-- Settles O4: a row that selects a word is the decoded instruction's, or `0nnn`'s over a specific word. -/
theorem decodeFollowsOpcodeTable : Obligations.DecodeFollowsOpcodeTable := by
  refine ⟨fun w => ?_, fun w row hrow row' hrow' hsel hsel' => ?_⟩
  · cases h : decode w with
    | ok ins => exact find_opcodeTable_of_decode h
    | error e => exact find_opcodeTable_of_illegal h
  · obtain ⟨i, rfl⟩ := mem_opcodeTable.mp hrow
    obtain ⟨j, rfl⟩ := mem_opcodeTable.mp hrow'
    exact rowOf_unique hsel hsel'

end Sys2Proof

namespace Sys2Proof.Machine

/-! ### What executing an instruction can do (00_scope.md §4, 60_exceptions.md §1) -/

/-- `t` is `s` with a well-formed fault recorded that names the instruction `ins` at `PC`, and nothing else changed. -/
def RaisesOwnFault (s : State) (ins : Instr) (t : State) : Prop :=
  ∃ r, t = raise s r ∧ r.pc = s.pc ∧ r.word = some (encode ins) ∧ faultRecordWf r = true

/-- The two outcomes of executing `ins` at `s`: under its fault condition it raises its fault, else it writes only the
parts its rule names. -/
def FaultsOrWritesOnly (s : State) (ins : Instr) (t : State) : Prop :=
  (faultCondition s ins ∧ RaisesOwnFault s ins t) ∨ (¬ faultCondition s ins ∧ Unchanged (writtenParts ins) s t)

section
variable {s t : State} {ins : Instr}

theorem boundsRecord_wf (pc word : Word) {kind : AccessKind} (hkind : kind ≠ .fetch) (base : Nat) :
    faultRecordWf (boundsRecord pc (some word) kind base) = true := by
  simp [faultRecordWf, boundsRecord, hkind, Config.memSize]

theorem keyRecord_wf (pc word : Word) {key : Byte} (hkey : 15 < key.toNat) :
    faultRecordWf (keyRecord pc word key) = true := by
  simp [faultRecordWf, keyRecord, hkey]

theorem accessing_faultsOrWritesOnly {kind : AccessKind} {len : Nat} {after : State}
    (h : accessing s (encode ins) kind len after = .next t)
    (hcond : faultCondition s ins ↔ 0 < len ∧ 0xFFF < s.i.toNat + len - 1) (hkind : kind ≠ .fetch)
    (hafter : Unchanged (writtenParts ins) s after) : FaultsOrWritesOnly s ins t := by
  rw [← beyondMemory_iff] at hcond
  obtain ⟨hb, rfl⟩ | ⟨hb, rfl⟩ := accessing_cases h
  · exact .inl ⟨hcond.mpr hb, _, rfl, rfl, rfl, boundsRecord_wf _ _ hkind _⟩
  · exact .inr ⟨by simp [hcond, hb], hafter⟩

theorem keySkip_faultsOrWritesOnly {x : Nibble} {want : Bool} (h : keySkip (encode ins) x want s = .next t)
    (hcond : faultCondition s ins ↔ 15 < (readV s x).toNat) (hparts : .pc ∈ writtenParts ins) :
    FaultsOrWritesOnly s ins t := by
  unfold keySkip at h
  split at h <;> cases h
  · exact .inr ⟨by rw [hcond]; omega, (Unchanged.refl _ s).skipIf hparts _⟩
  · have hkey : 15 < (readV s x).toNat := by omega
    exact .inl ⟨hcond.mpr hkey, _, rfl, rfl, rfl, keyRecord_wf _ _ hkey⟩

theorem execRet_faultsOrWritesOnly (h : execRet s = .next t) : FaultsOrWritesOnly s .ret t := by
  unfold execRet at h
  split at h <;> cases h
  case isTrue hsp => exact .inl ⟨hsp, _, rfl, rfl, rfl, rfl⟩
  case isFalse hsp => exact .inr ⟨hsp, by simp [Unchanged, writtenParts, readByte]⟩

theorem execCall_faultsOrWritesOnly {nnn : Addr12} (h : execCall nnn s = .next t) :
    FaultsOrWritesOnly s (.call nnn) t := by
  unfold execCall at h
  have hle : s.sp.val ≤ 16 := Nat.le_of_lt_succ s.sp.isLt
  split at h <;> cases h
  case isTrue hsp => exact .inr ⟨Nat.ne_of_lt hsp, by simp [Unchanged, writtenParts, readByte]⟩
  case isFalse hsp => exact .inl ⟨by simp only [faultCondition]; omega, _, rfl, rfl, rfl, rfl⟩

theorem execLdVK_faultsOrWritesOnly {x : Nibble} (h : execLdVK x s = .next t) :
    FaultsOrWritesOnly s (.ldVK x) t := by
  unfold execLdVK at h
  split at h <;> cases h
  · exact .inr ⟨id, ((Unchanged.refl _ s).writeV (by simp [writtenParts]) _ _).advance (by simp [writtenParts])⟩
  · exact .inr ⟨id, (Unchanged.refl _ s).advance (by simp [writtenParts])⟩

/-- Instruction by instruction: those with a check by the lemmas above; each of the others answers one composition of
the named updates, whose fields the `simp` lemmas of the state give. -/
theorem exec_faultsOrWritesOnly (h : exec ins s = .next t) : FaultsOrWritesOnly s ins t := by
  cases ins
  case ret => exact execRet_faultsOrWritesOnly h
  case call => exact execCall_faultsOrWritesOnly h
  case skp | sknp => exact keySkip_faultsOrWritesOnly h Iff.rfl (by simp [writtenParts])
  case ldVK => exact execLdVK_faultsOrWritesOnly h
  case drw =>
    exact accessing_faultsOrWritesOnly h Iff.rfl (by decide) (by simp [Unchanged, writtenParts, readByte, drawSprite])
  case ldBV =>
    exact accessing_faultsOrWritesOnly h (by simp [faultCondition]) (by decide) (by simp [Unchanged, writtenParts])
  case ldMemV =>
    exact accessing_faultsOrWritesOnly h (by simp [faultCondition]) (by decide) (by simp [Unchanged, writtenParts])
  case ldVMem =>
    exact accessing_faultsOrWritesOnly h (by simp [faultCondition]) (by decide)
      (by simp [Unchanged, writtenParts, readByte])
  all_goals cases h; exact .inr ⟨id, by simp [Unchanged, writtenParts, readByte]⟩

theorem Unchanged.fault_eq (h : Unchanged (writtenParts ins) s t) : t.fault = s.fault := by
  obtain ⟨-, -, -, -, -, -, -, -, -, -, -, hfault, -⟩ := h
  exact hfault (by cases ins <;> simp [writtenParts])

theorem RaisesOwnFault.fault_ne_none (h : RaisesOwnFault s ins t) : t.fault ≠ none := by
  obtain ⟨r, rfl, -⟩ := h
  simp

theorem raise_unchanged (s : State) (r : FaultRecord) : Unchanged [.fault] s (raise s r) := by
  simp [Unchanged, readByte]

/-- In a running block, a fault recorded tells which of the two outcomes it was. -/
theorem exec_of_fault (hs : s.fault = none) (h : exec ins s = .next t) (hf : t.fault ≠ none) :
    faultCondition s ins ∧ RaisesOwnFault s ins t := by
  obtain hraise | ⟨-, hkept⟩ := exec_faultsOrWritesOnly h
  · exact hraise
  · exact absurd (hkept.fault_eq.trans hs) hf

theorem exec_of_noFault (h : exec ins s = .next t) (hf : t.fault = none) :
    ¬ faultCondition s ins ∧ Unchanged (writtenParts ins) s t := by
  obtain ⟨-, hraise⟩ | hkept := exec_faultsOrWritesOnly h
  · exact absurd hf hraise.fault_ne_none
  · exact hkept

end

end Sys2Proof.Machine

namespace Sys2Proof

open Machine

/-- Settles O44: the frame of each of the two outcomes of an instruction. -/
theorem frameOfEveryInstruction : Obligations.FrameOfEveryInstruction := by
  intro s t ins hs h
  refine ⟨fun hf => (exec_of_noFault h hf).2, fun hf => ?_⟩
  obtain ⟨-, r, rfl, -⟩ := exec_of_fault hs h hf
  exact raise_unchanged s r

/-- Settles O38: the two outcomes of an instruction exclude each other. -/
theorem faultConditionsExactly : Obligations.FaultConditionsExactly := by
  intro s t ins hs h
  constructor
  · exact fun hf => (exec_of_fault hs h hf).1
  · exact fun hcond hf => (exec_of_noFault h hf).1 hcond

end Sys2Proof

namespace Sys2Proof.Machine

/-! ### A frame, part by part -/

section
variable {l : List StatePart} {s t : State}

theorem Unchanged.readByte_eq (h : Unchanged l s t) (hp : .mem ∉ l) (a : Nat) : readByte t a = readByte s a := by
  obtain ⟨hmem, -⟩ := h
  exact hmem hp a

theorem Unchanged.v_eq (h : Unchanged l s t) (hp : .v ∉ l) : t.v = s.v := by
  obtain ⟨-, hv, -⟩ := h
  exact hv hp

theorem Unchanged.i_eq (h : Unchanged l s t) (hp : .i ∉ l) : t.i = s.i := by
  obtain ⟨-, -, hi, -⟩ := h
  exact hi hp

theorem Unchanged.stack_eq (h : Unchanged l s t) (hp : .stack ∉ l) : t.stack = s.stack := by
  obtain ⟨-, -, -, -, hstack, -⟩ := h
  exact hstack hp

theorem Unchanged.sp_eq (h : Unchanged l s t) (hp : .sp ∉ l) : t.sp = s.sp := by
  obtain ⟨-, -, -, -, -, hsp, -⟩ := h
  exact hsp hp

theorem Unchanged.dt_eq (h : Unchanged l s t) (hp : .dt ∉ l) : t.dt = s.dt := by
  obtain ⟨-, -, -, -, -, -, hdt, -⟩ := h
  exact hdt hp

theorem Unchanged.st_eq (h : Unchanged l s t) (hp : .st ∉ l) : t.st = s.st := by
  obtain ⟨-, -, -, -, -, -, -, hst, -⟩ := h
  exact hst hp

theorem Unchanged.keys_eq (h : Unchanged l s t) (hp : .keys ∉ l) : t.keys = s.keys := by
  obtain ⟨-, -, -, -, -, -, -, -, hkeys, -⟩ := h
  exact hkeys hp

theorem Unchanged.gfx_eq (h : Unchanged l s t) (hp : .gfx ∉ l) : t.gfx = s.gfx := by
  obtain ⟨-, -, -, -, -, -, -, -, -, hgfx, -⟩ := h
  exact hgfx hp

theorem Unchanged.draw_eq (h : Unchanged l s t) (hp : .draw ∉ l) : t.draw = s.draw := by
  obtain ⟨-, -, -, -, -, -, -, -, -, -, hdraw, -⟩ := h
  exact hdraw hp

/-- A longer list of exceptions asks for less. -/
theorem Unchanged.of_subset {l' : List StatePart} (h : Unchanged l s t) (hsub : l ⊆ l') : Unchanged l' s t := by
  obtain ⟨hmem, hv, hi, hpc, hstack, hsp, hdt, hst, hkeys, hgfx, hdraw, hfault, hdraws⟩ := h
  have out {p : StatePart} (hp : p ∉ l') : p ∉ l := fun hl => hp (hsub hl)
  exact ⟨fun hp => hmem (out hp), fun hp => hv (out hp), fun hp => hi (out hp), fun hp => hpc (out hp),
    fun hp => hstack (out hp), fun hp => hsp (out hp), fun hp => hdt (out hp), fun hp => hst (out hp),
    fun hp => hkeys (out hp), fun hp => hgfx (out hp), fun hp => hdraw (out hp), fun hp => hfault (out hp),
    fun hp => hdraws (out hp)⟩

/-- Whether or not it faults, an instruction changes nothing but the parts its rule names and `fault`. -/
theorem exec_unchanged {ins : Instr} (h : exec ins s = .next t) : Unchanged (.fault :: writtenParts ins) s t := by
  obtain ⟨-, r, rfl, -⟩ | ⟨-, hkept⟩ := exec_faultsOrWritesOnly h
  · exact (raise_unchanged s r).of_subset (by simp)
  · exact hkept.of_subset (List.subset_cons_self ..)

end

/-! ### The invariant (10_state.md §4 and §6, 60_exceptions.md §1) -/

section
variable {s t : State}

theorem MachineInv.raise (h : MachineInv s) {r : FaultRecord} (hr : faultRecordWf r = true) :
    MachineInv (raise s r) := by
  obtain ⟨hmem, hpc, hstack, -⟩ := h
  exact ⟨hmem, hpc, hstack, fun _ e => Option.some.inj e ▸ hr⟩

/-- The invariant does not speak of `draw`, the timers, the keys, the registers or the draws. -/
theorem MachineInv.clearDraw (h : MachineInv s) : MachineInv (clearDraw s) := h

theorem MachineInv.tickTimers (h : MachineInv s) : MachineInv (tickTimers s) := h

theorem MachineInv.setKeys (h : MachineInv s) (keys : Vector Bool 16) : MachineInv (setKeys keys s) := h

theorem word_add_toNat_le (a b : Word) : (a + b).toNat ≤ a.toNat + b.toNat := by
  rw [BitVec.toNat_add]
  exact Nat.mod_le _ _

/-- `Cxkk` leaves `PC` at the next word, whatever the byte. -/
theorem MachineInv.rndWith (h : MachineInv s) (hpc : s.pc.toNat < 0xFFF) (r : Byte) (x : Nibble) (kk : Byte) :
    MachineInv (rndWith r x kk s) := by
  obtain ⟨hmem, -, hstack, hfault⟩ := h
  have hnext : (s.pc + 2).toNat ≤ s.pc.toNat + 2 := word_add_toNat_le s.pc 2
  exact ⟨hmem, by rw [rndWith_pc]; omega, hstack, hfault⟩

/-- Only `Fx33` and `Fx55` write memory, and they write byte by byte. -/
theorem exec_keeps_wf {ins : Instr} (h : exec ins s = .next t) (hmem : Memory.wf s.mem = true) :
    Memory.wf t.mem = true := by
  cases ins
  case ldBV =>
    obtain ⟨-, rfl⟩ | ⟨-, rfl⟩ := accessing_cases h
    · exact hmem
    · exact wf_writeBytes hmem _ _
  case ldMemV =>
    obtain ⟨-, rfl⟩ | ⟨-, rfl⟩ := accessing_cases h
    · exact hmem
    · exact wf_storeRegs hmem _ _ _
  case drw | ldVMem => obtain ⟨-, rfl⟩ | ⟨-, rfl⟩ := accessing_cases h <;> exact hmem
  case ret => simp only [exec, execRet] at h; split at h <;> cases h <;> exact hmem
  case call => simp only [exec, execCall] at h; split at h <;> cases h <;> exact hmem
  case skp | sknp => simp only [exec, execSkp, execSknp, keySkip] at h; split at h <;> cases h <;> exact hmem
  case ldVK => simp only [exec, execLdVK] at h; split at h <;> cases h <;> exact hmem
  all_goals cases h; exact hmem

/-- Where an instruction that was fetched goes: the farthest is `Bnnn`'s 0xFFF + 0xFF; a return goes two past a
fetchable address, a skip four past one. -/
theorem pcAfter_lt (hs : MachineInv s) (hpc : s.pc.toNat < 0xFFF) (ins : Instr) : (pcAfter s ins).toNat < 0x10FF := by
  obtain ⟨-, -, hstack, -⟩ := hs
  have h2 : (s.pc + 2).toNat ≤ s.pc.toNat + 2 := word_add_toNat_le s.pc 2
  have h4 : (s.pc + 4).toNat ≤ s.pc.toNat + 4 := word_add_toNat_le s.pc 4
  cases ins <;> simp only [pcAfter]
  case jp nnn | call nnn =>
    have := nnn.isLt
    have := target_toNat nnn
    rw [target] at this
    omega
  case jpV0 nnn =>
    have := nnn.isLt
    have := (readV s 0#4).isLt
    have := offsetTarget_toNat s nnn
    rw [offsetTarget, target, wide] at this
    omega
  case ret =>
    generalize hslot : s.stack[s.sp.val - 1]'(by omega) = slot
    have hle : slot.toNat ≤ 0xFFE := hslot ▸ hstack ⟨s.sp.val - 1, by omega⟩
    have : (slot + 2).toNat ≤ slot.toNat + 2 := word_add_toNat_le slot 2
    omega
  case seImm | sneImm | seReg | sneReg | skp | sknp => split <;> omega
  all_goals omega

/-- The only push is of the address the instruction was fetched from. -/
theorem exec_stack_le {ins : Instr} (h : exec ins s = .next t) (hpc : s.pc.toNat < 0xFFF)
    (hstack : ∀ j : Fin 16, (s.stack[j.val]'j.isLt).toNat ≤ 0xFFE) (j : Fin 16) :
    (t.stack[j.val]'j.isLt).toNat ≤ 0xFFE := by
  by_cases hcall : .stack ∈ writtenParts ins
  · cases ins <;> simp [writtenParts] at hcall
    simp only [exec, execCall] at h
    split at h <;> cases h
    · simp only [jump_stack, push_stack, Vector.getElem_set]
      split
      · omega
      · exact hstack j
    · exact hstack j
  · rw [(exec_unchanged h).stack_eq (by simpa using hcall)]
    exact hstack j

/-- Executing an instruction that was fetched keeps the invariant. -/
theorem exec_keeps_inv {ins : Instr} (h : exec ins s = .next t) (hs : MachineInv s) (hpc : s.pc.toNat < 0xFFF) :
    MachineInv t := by
  obtain ⟨-, r, rfl, -, -, hwf⟩ | ⟨-, hkept⟩ := exec_faultsOrWritesOnly h
  case inl => exact hs.raise hwf
  case inr =>
    have hafter := pcAfter_lt hs hpc ins
    obtain ⟨hmem, hpcs, hstack, hfault⟩ := hs
    refine ⟨exec_keeps_wf h hmem, ?_, exec_stack_le h hpc hstack, hkept.fault_eq ▸ hfault⟩
    obtain ⟨r, rfl⟩ | ⟨-, hpct⟩ := exec_raisesOrLeavesPc h
    · exact hpcs
    · rw [hpct]; exact hafter

theorem nextInstr_pc_lt {ins : Instr} (h : nextInstr s = some ins) : s.pc.toNat < 0xFFF := by
  obtain ⟨-, w, hw, -⟩ := nextInstr_eq_some.mp h
  exact (fetch_ok hw).1

theorem fetch_error_eq {r : FaultRecord} (h : fetch s = .error r) : r = boundsRecord s.pc none .fetch s.pc.toNat := by
  unfold fetch at h
  split at h <;> cases h
  rfl

theorem fetch_error_wf {r : FaultRecord} (h : fetch s = .error r) : faultRecordWf r = true := by
  simp [fetch_error_eq h, faultRecordWf, boundsRecord, Config.memSize]

theorem step_keeps_inv (hs : MachineInv s) (h : step s = .next t) : MachineInv t := by
  obtain ⟨-, rfl⟩ | ⟨-, r, hr, rfl⟩ | ⟨-, w, e, -, -, rfl⟩ | ⟨ins, u, hins, hu, rfl⟩ := step_cases h
  case inl => exact hs
  case inr.inl => exact hs.clearDraw.raise (fetch_error_wf hr)
  case inr.inr.inl => exact hs.clearDraw.raise rfl
  case inr.inr.inr =>
    have hinv : MachineInv u := exec_keeps_inv hu hs.clearDraw (nextInstr_pc_lt hins)
    split
    · exact hinv
    · exact hinv.tickTimers

/-! ### The cycle with a given byte (40_cycle.md R138) -/

/-- Only `Cxkk` reads the byte. -/
theorem execWith_of_ne_rnd {ins : Instr} (h : ∀ x kk, ins ≠ .rnd x kk) (r : Byte) (s : State) :
    execWith r ins s = exec ins s := by
  cases ins
  case rnd x kk => exact absurd rfl (h x kk)
  all_goals rfl

theorem execWith_drawByte (ins : Instr) (s : State) : execWith (Config.drawByte s.draws) ins s = exec ins s := by
  cases ins <;> rfl

theorem cycle_of_nextInstr {ins : Instr} (h : nextInstr s = some ins) (r : Byte) :
    cycle r s = endCycle (execWith r ins (clearDraw s)) := by
  obtain ⟨hf, w, hw, hd⟩ := nextInstr_eq_some.mp h
  simp [cycle, hf, hw, hd]

/-- If no instruction is executed, the cycle does not come to the byte. -/
theorem cycle_of_nextInstr_none (h : nextInstr s = none) (r : Byte) : cycle r s = step s := by
  cases hf : s.fault with
  | some f => simp [cycle, step, hf]
  | none =>
    cases hw : fetch s with
    | error f => simp [cycle, step, hf, hw]
    | ok w =>
      cases hd : decode w with
      | error e => simp [cycle, step, hf, hw, hd]
      | ok ins => rw [nextInstr_eq_some.mpr ⟨hf, w, hw, hd⟩] at h; cases h

theorem cycle_eq_step (h : ∀ x kk, nextInstr s ≠ some (.rnd x kk)) (r : Byte) : cycle r s = step s := by
  cases hins : nextInstr s with
  | none => exact cycle_of_nextInstr_none hins r
  | some ins =>
    rw [cycle_of_nextInstr hins, step_of_nextInstr hins, execWith_of_ne_rnd fun x kk e => h x kk (e ▸ hins)]

theorem step_eq_cycle (s : State) : step s = cycle (Config.drawByte s.draws) s := by
  cases hins : nextInstr s with
  | none => exact (cycle_of_nextInstr_none hins _).symm
  | some ins =>
    rw [cycle_of_nextInstr hins, step_of_nextInstr hins, ← clearDraw_draws s, execWith_drawByte]

theorem cycle_of_rnd (r : Byte) {x : Nibble} {kk : Byte} (h : nextInstr s = some (.rnd x kk)) :
    cycle r s = .next (tickTimers (rndWith r x kk (clearDraw s))) := by
  have hf : s.fault = none := (nextInstr_eq_some.mp h).1
  rw [cycle_of_nextInstr h]
  simp [execWith, endCycle, hf]

theorem cycle_keeps_inv (hs : MachineInv s) {r : Byte} (h : cycle r s = .next t) : MachineInv t := by
  by_cases hrnd : ∃ x kk, nextInstr s = some (.rnd x kk)
  · obtain ⟨x, kk, hins⟩ := hrnd
    rw [cycle_of_rnd r hins] at h
    cases h
    exact (hs.clearDraw.rndWith (nextInstr_pc_lt hins) r x kk).tickTimers
  · push Not at hrnd
    rw [cycle_eq_step hrnd] at h
    exact step_keeps_inv hs h

/-! ### The host's operations (60_exceptions.md §8) -/

theorem reset_inv : MachineInv State.reset :=
  ⟨wf_reset_mem, by decide, fun j => by simp [State.reset], nofun⟩

theorem stepBlock_keeps_inv (hs : MachineInv s) (r : Byte) {b : Block} (hb : BlockInvariant b) :
    BlockInvariant (stepBlock r s b).1 := by
  unfold stepBlock
  split
  case h_1 t ht => exact cycle_keeps_inv hs ht
  all_goals exact hb

theorem loadRom_keeps_inv (hs : MachineInv s) {rom : Rom} (h : loadRom rom s = .ok t) : MachineInv t := by
  obtain ⟨hmem, hrest⟩ := hs
  unfold loadRom at h
  split at h
  · cases h
  · split at h <;> cases h
    exact ⟨wf_writeBytes hmem _ _, hrest⟩

theorem loadBlock_keeps_inv (rom : Rom) {b : Block} (hb : BlockInvariant b) :
    BlockInvariant (loadBlock rom b).1 := by
  cases b with
  | unreset => exact hb
  | booted s => exact hb
  | fresh s =>
    simp only [loadBlock]
    split
    case h_1 t ht => exact loadRom_keeps_inv hb ht
    case h_2 => exact hb

end

end Sys2Proof.Machine

namespace Sys2Proof

open Machine

/-- Settles O51: reset lists no byte, pushes no address and records no fault. -/
theorem invariantAtReset : Obligations.InvariantAtReset := reset_inv

/-- Settles O52: by the cases of a step. -/
theorem invariantKept : Obligations.InvariantKept := fun _ _ => step_keeps_inv

/-- Settles O53: operation by operation; a block not yet reset has no state to keep. -/
theorem hostOperationsKeepInvariant : Obligations.HostOperationsKeepInvariant := by
  intro op b hb
  cases op with
  | reset => exact reset_inv
  | load rom => exact loadBlock_keeps_inv rom hb
  | step r => cases b with
    | unreset => exact hb
    | fresh s | booted s => exact stepBlock_keeps_inv hb r hb
  | setKeys keys => cases b with
    | unreset => exact hb
    | fresh s | booted s => exact MachineInv.setKeys hb keys
  | readOutputs => cases b <;> exact hb

/-- Settles O45: of the instructions, only `Cxkk` separates the cycle from `step`. -/
theorem stepIsCycleOfDraw : Obligations.StepIsCycleOfDraw := by
  refine ⟨step_eq_cycle, fun s r r' h => ?_, fun s r x kk h => ?_⟩
  · rw [cycle_eq_step h, cycle_eq_step h]
  · exact ⟨_, cycle_of_rnd r h, readV_writeV_same _ x _, (nextInstr_eq_some.mp h).1⟩

end Sys2Proof

namespace Sys2Proof.Machine

/-! ### The cycle's cases, and the faults of fetch and decode (40_cycle.md R138, 60_exceptions.md R305, R306) -/

section
variable {s t : State} {ins : Instr}

theorem step_of_halted (h : s.fault.isSome = true) : step s = .next s := by
  simp [step, h]

theorem cycle_of_halted (h : s.fault.isSome = true) (r : Byte) : cycle r s = .next s := by
  simp [cycle, h]

theorem step_of_fetch_error {r : FaultRecord} (hs : s.fault = none) (h : fetch s = .error r) :
    step s = .next (raise (clearDraw s) r) := by
  simp [step, hs, h]

theorem step_of_illegal {w : Word} {e : DecodeError} (hs : s.fault = none) (hw : fetch s = .ok w)
    (hd : decode w = .error e) : step s = .next (raise (clearDraw s) (plainRecord .unknownOpcode s.pc w)) := by
  simp [step, hs, hw, hd]

/-- The step of an instruction, by what its execution left. -/
theorem step_of_exec {u : State} (hins : nextInstr s = some ins) (hu : exec ins (clearDraw s) = .next u) :
    step s = .next (if u.fault.isSome then u else tickTimers u) := by
  rw [step_of_nextInstr hins, hu]
  rfl

theorem step_next (s : State) : ∃ t, step s = .next t := by
  cases hf : s.fault with
  | some r => exact ⟨s, step_of_halted (by simp [hf])⟩
  | none =>
    cases hw : fetch s with
    | error r => exact ⟨_, step_of_fetch_error hf hw⟩
    | ok w =>
      cases hd : decode w with
      | error e => exact ⟨_, step_of_illegal hf hw hd⟩
      | ok ins =>
        obtain ⟨u, hu⟩ := exec_next ins (clearDraw s)
        exact ⟨_, step_of_exec (nextInstr_eq_some.mpr ⟨hf, w, hw, hd⟩) hu⟩

theorem raise_clearDraw_unchanged (s : State) (r : FaultRecord) :
    Unchanged [.draw, .fault] s (raise (clearDraw s) r) := by
  simp [Unchanged, readByte]

/-- A running block that ends a cycle with a fault has only cleared `draw` and recorded the fault, under the address and
the word of the instruction. -/
theorem step_of_fault (hs : s.fault = none) (h : step s = .next t) (hf : t.fault ≠ none) :
    ∃ r, t = raise (clearDraw s) r ∧ r.pc = s.pc ∧ r.word = (fetch s).toOption := by
  obtain ⟨hsome, -⟩ | ⟨-, r, hr, rfl⟩ | ⟨-, w, e, hw, -, rfl⟩ | ⟨ins, u, hins, hu, rfl⟩ := step_cases h
  case inl => simp [hs] at hsome
  case inr.inl =>
    have hrec := fetch_error_eq hr
    exact ⟨r, rfl, by rw [hrec]; rfl, by rw [hr, hrec]; rfl⟩
  case inr.inr.inl => exact ⟨_, rfl, rfl, by rw [hw]; rfl⟩
  case inr.inr.inr =>
    have hu' : u.fault ≠ none := fun e => hf (by simp [e])
    obtain ⟨-, r, rfl, hpc, hword, -⟩ := exec_of_fault (s := clearDraw s) hs hu hu'
    obtain ⟨-, w, hw, hd⟩ := nextInstr_eq_some.mp hins
    exact ⟨r, by simp, hpc, by rw [hword, (encode_of_decode hd).1, hw]; rfl⟩

/-! ### The timers and `draw` over a completed cycle (40_cycle.md R131, R137) -/

/-- Only `Fx15` writes `DT`. -/
theorem exec_dt (h : exec ins s = .next t) :
    t.dt = match ins with | .ldDtV x => readV s x | _ => s.dt := by
  cases ins
  case ldDtV => cases h; rfl
  all_goals exact (exec_unchanged h).dt_eq (by simp [writtenParts])

/-- Only `Fx18` writes `ST`. -/
theorem exec_st (h : exec ins s = .next t) :
    t.st = match ins with | .ldStV x => readV s x | _ => s.st := by
  cases ins
  case ldStV => cases h; rfl
  all_goals exact (exec_unchanged h).st_eq (by simp [writtenParts])

/-- `00E0` and a draw that passes its bounds check set `draw`; no other instruction writes it. -/
theorem exec_draw (h : exec ins s = .next t) (hs : s.draw = false) (hf : t.fault = none) :
    t.draw = true ↔ ins = .cls ∨ ∃ x y n, ins = .drw x y n := by
  cases ins
  case cls => cases h; simp
  case drw =>
    obtain ⟨-, rfl⟩ | ⟨-, rfl⟩ := accessing_cases h
    · cases hf
    · simp [drawSprite]
  all_goals simp [(exec_unchanged h).draw_eq (by simp [writtenParts]), hs]

/-! ### Who writes a register or a byte (10_state.md R33, R35; 20_memory.md R76) -/

theorem exec_readV (h : exec ins s = .next t) {z : Nibble} (hz : writesV ins z = false) : readV t z = readV s z := by
  cases ins
  case drw =>
    obtain ⟨-, rfl⟩ | ⟨-, rfl⟩ := accessing_cases h
    · rfl
    · exact readV_writeV_ne _ _ (by simpa [writesV] using hz)
  case ldVMem x =>
    obtain ⟨-, rfl⟩ | ⟨-, rfl⟩ := accessing_cases h
    · rfl
    · have hxz : ¬ z.toNat ≤ x.toNat := by simpa [writesV] using hz
      exact (get_loadRegs s.mem s.i.toNat s.v x ⟨z.toNat, z.isLt⟩).trans (if_neg hxz)
  case ldVK =>
    simp only [exec, execLdVK] at h
    split at h <;> cases h
    · exact readV_writeV_ne _ _ (by simpa [writesV] using hz)
    · rfl
  case ldImm | addImm | ldReg | orReg | andReg | xorReg | rnd | ldVDt =>
    cases h
    exact readV_writeV_ne _ _ (by simpa [writesV] using hz)
  case addReg | sub | shr | subn | shl =>
    obtain ⟨hx, hF⟩ : z ≠ _ ∧ z ≠ 0xF#4 := by simpa [writesV] using hz
    cases h
    exact (readV_writeV_ne _ _ hx).trans (readV_writeV_ne _ _ hF)
  all_goals exact readV_congr ((exec_unchanged h).v_eq (by simp [writtenParts])) z

theorem exec_readByte (h : exec ins s = .next t) {a : Nat} (ha : storesTo s ins a = false) :
    readByte t a = readByte s a := by
  cases ins
  case ldBV =>
    obtain ⟨-, rfl⟩ | ⟨-, rfl⟩ := accessing_cases h
    · rfl
    · have hout : ¬ (s.i.toNat ≤ a ∧ a ≤ s.i.toNat + 2) := by simpa [storesTo] using ha
      exact read_writeBytes_outside _ _ _ (by simp only [bcdDigits, List.length_cons, List.length_nil]; omega)
  case ldMemV x =>
    obtain ⟨-, rfl⟩ | ⟨-, rfl⟩ := accessing_cases h
    · rfl
    · have hout : ¬ (s.i.toNat ≤ a ∧ a ≤ s.i.toNat + x.toNat) := by simpa [storesTo] using ha
      exact read_storeRegs_outside _ _ _ _ (by omega)
  all_goals exact (exec_unchanged h).readByte_eq (by simp [writtenParts]) a

/-! ### Who writes a part, over a whole step -/

/-- A step that executes `ins` is its execution, and then writes at most the timers. -/
theorem step_exec (h : step s = .next t) (hins : nextInstr s = some ins) :
    ∃ u, exec ins (clearDraw s) = .next u ∧ (t = u ∨ t = tickTimers u) := by
  obtain ⟨u, hu⟩ := exec_next ins (clearDraw s)
  rw [step_of_exec hins hu] at h
  cases h
  exact ⟨u, hu, by split <;> simp⟩

/-- A step that executes no instruction writes at most `draw` and `fault`. -/
theorem step_unchanged_of_none (h : step s = .next t) (hnone : nextInstr s = none) :
    Unchanged [.draw, .fault] s t := by
  obtain ⟨-, rfl⟩ | ⟨-, r, -, rfl⟩ | ⟨-, w, e, -, -, rfl⟩ | ⟨ins, u, hins, -, -⟩ := step_cases h
  case inl => exact Unchanged.refl _ t
  case inr.inl => exact raise_clearDraw_unchanged s _
  case inr.inr.inl => exact raise_clearDraw_unchanged s _
  case inr.inr.inr => rw [hnone] at hins; cases hins

theorem Unchanged.trans {l : List StatePart} {u : State} (h : Unchanged l s t) (h' : Unchanged l t u) :
    Unchanged l s u := by
  obtain ⟨hmem, hv, hi, hpc, hstack, hsp, hdt, hst, hkeys, hgfx, hdraw, hfault, hdraws⟩ := h
  obtain ⟨hmem', hv', hi', hpc', hstack', hsp', hdt', hst', hkeys', hgfx', hdraw', hfault', hdraws'⟩ := h'
  exact ⟨fun hp a => (hmem' hp a).trans (hmem hp a), fun hp => (hv' hp).trans (hv hp),
    fun hp => (hi' hp).trans (hi hp), fun hp => (hpc' hp).trans (hpc hp),
    fun hp => (hstack' hp).trans (hstack hp), fun hp => (hsp' hp).trans (hsp hp),
    fun hp => (hdt' hp).trans (hdt hp), fun hp => (hst' hp).trans (hst hp),
    fun hp => (hkeys' hp).trans (hkeys hp), fun hp => (hgfx' hp).trans (hgfx hp),
    fun hp => (hdraw' hp).trans (hdraw hp), fun hp => (hfault' hp).trans (hfault hp),
    fun hp => (hdraws' hp).trans (hdraws hp)⟩

/-- The parts a cycle may write whatever its instruction: `draw` at its start, the timers at its end, or the fault. -/
def cycleParts : List StatePart := [.draw, .dt, .st, .fault]

theorem step_unchanged (h : step s = .next t) (hins : nextInstr s = some ins) :
    Unchanged (cycleParts ++ writtenParts ins) s t := by
  obtain ⟨u, hu, ht⟩ := step_exec h hins
  have hclear : Unchanged cycleParts s (clearDraw s) := by simp [Unchanged, cycleParts, readByte]
  have htick : Unchanged cycleParts u (tickTimers u) := by simp [Unchanged, cycleParts, readByte]
  have hexec : .fault :: writtenParts ins ⊆ cycleParts ++ writtenParts ins :=
    List.cons_subset.mpr ⟨by simp [cycleParts], List.subset_append_right ..⟩
  have hstart : Unchanged (cycleParts ++ writtenParts ins) s u :=
    (hclear.of_subset (List.subset_append_left ..)).trans ((exec_unchanged hu).of_subset hexec)
  obtain rfl | rfl := ht
  · exact hstart
  · exact hstart.trans (htick.of_subset (List.subset_append_left ..))

/-- A part that every frame of a step must list, and that is no part of the cycle's own, is one the instruction
writes. -/
theorem step_writer (h : step s = .next t) {p : StatePart} (hp : p ∉ cycleParts)
    (hlisted : ∀ l, Unchanged l s t → p ∈ l) : ∃ ins, nextInstr s = some ins ∧ p ∈ writtenParts ins := by
  cases hins : nextInstr s with
  | none =>
    have hframe : Unchanged cycleParts s t := (step_unchanged_of_none h hins).of_subset (by decide)
    exact absurd (hlisted _ hframe) hp
  | some ins =>
    have := hlisted _ (step_unchanged h hins)
    exact ⟨ins, rfl, (List.mem_append.mp this).resolve_left hp⟩

theorem step_keys (h : step s = .next t) : t.keys = s.keys := by
  by_contra hne
  obtain ⟨ins, -, hmem⟩ := step_writer h (p := .keys) (by decide) fun _ hl => not_imp_comm.mp hl.keys_eq hne
  cases ins <;> simp [writtenParts] at hmem

theorem step_i_writer (h : step s = .next t) (hne : t.i ≠ s.i) :
    ∃ ins, nextInstr s = some ins ∧
      ((∃ a, ins = .ldI a) ∨ (∃ x, ins = .addIV x) ∨ ∃ x, ins = .ldFV x) := by
  obtain ⟨ins, hins, hmem⟩ := step_writer h (p := .i) (by decide) fun _ hl => not_imp_comm.mp hl.i_eq hne
  refine ⟨ins, hins, ?_⟩
  cases ins <;> simp [writtenParts] at hmem ⊢

theorem step_stack_writer (h : step s = .next t) (hne : t.stack ≠ s.stack) : ∃ a, nextInstr s = some (.call a) := by
  obtain ⟨ins, hins, hmem⟩ :=
    step_writer h (p := .stack) (by decide) fun _ hl => not_imp_comm.mp hl.stack_eq hne
  cases ins <;> simp [writtenParts] at hmem
  exact ⟨_, hins⟩

theorem step_sp_writer (h : step s = .next t) (hne : t.sp ≠ s.sp) :
    (∃ a, nextInstr s = some (.call a)) ∨ nextInstr s = some .ret := by
  obtain ⟨ins, hins, hmem⟩ := step_writer h (p := .sp) (by decide) fun _ hl => not_imp_comm.mp hl.sp_eq hne
  cases ins <;> simp [writtenParts] at hmem
  case ret => exact .inr hins
  case call => exact .inl ⟨_, hins⟩

theorem step_gfx_writer (h : step s = .next t) (hne : t.gfx ≠ s.gfx) :
    nextInstr s = some .cls ∨ ∃ x y n, nextInstr s = some (.drw x y n) := by
  obtain ⟨ins, hins, hmem⟩ := step_writer h (p := .gfx) (by decide) fun _ hl => not_imp_comm.mp hl.gfx_eq hne
  cases ins <;> simp [writtenParts] at hmem
  case cls => exact .inl hins
  case drw => exact .inr ⟨_, _, _, hins⟩

theorem step_readV_writer (h : step s = .next t) {z : Nibble} (hne : readV t z ≠ readV s z) :
    ∃ ins, nextInstr s = some ins ∧ writesV ins z = true := by
  obtain ⟨ins, hins, -⟩ :=
    step_writer h (p := .v) (by decide) fun l hl => by_contra fun hp => hne (readV_congr (hl.v_eq hp) z)
  obtain ⟨u, hu, ht⟩ := step_exec h hins
  refine ⟨ins, hins, by_contra fun hw => hne ?_⟩
  have hkept : readV u z = readV (clearDraw s) z := exec_readV hu (by simpa using hw)
  obtain rfl | rfl := ht <;> simpa using hkept

theorem step_readByte_writer (h : step s = .next t) {a : Nat} (hne : readByte t a ≠ readByte s a) :
    ∃ ins, nextInstr s = some ins ∧ storesTo s ins a = true := by
  obtain ⟨ins, hins, -⟩ :=
    step_writer h (p := .mem) (by decide) fun l hl => by_contra fun hp => hne (hl.readByte_eq hp a)
  obtain ⟨u, hu, ht⟩ := step_exec h hins
  refine ⟨ins, hins, by_contra fun hw => hne ?_⟩
  have hsame : storesTo (clearDraw s) ins a = storesTo s ins a := by cases ins <;> rfl
  have hkept : readByte u a = readByte (clearDraw s) a := exec_readByte hu (by simpa [hsame] using hw)
  obtain rfl | rfl := ht <;> exact hkept

end

end Sys2Proof.Machine

namespace Sys2Proof

open Machine

/-- Settles O34: `{ s with draw := false }` is the cycle's first state. -/
theorem stepRunsDecodedInstruction : Obligations.StepRunsDecodedInstruction := by
  intro s ins hs hpc hd
  have hins : nextInstr s = some ins := nextInstr_eq_some.mpr ⟨hs, _, fetch_of_lt hpc, hd⟩
  obtain ⟨u, hu⟩ := exec_next ins (clearDraw s)
  have hstep := step_of_exec hins hu
  refine ⟨u, hu, fun hf => ⟨tickTimers u, ?_, decrement_toNat _, decrement_toNat _, rfl⟩, fun hf => ?_⟩
  · simpa [hf] using hstep
  · simpa [Option.isSome_iff_ne_none.mpr hf] using hstep

/-- Settles O35: by the cases of a step before an instruction is executed. -/
theorem fetchThenDecodeFaults : Obligations.FetchThenDecodeFaults := by
  intro s hs
  refine ⟨fun hpc => ?_, fun w hpc hw hd => ?_⟩
  · exact ⟨_, step_of_fetch_error hs (fetch_of_ge hpc), rfl, raise_unchanged _ _⟩
  · subst hw
    cases hdec : decode (wordOfBytes (readByte s s.pc.toNat) (readByte s (s.pc.toNat + 1))) with
    | ok ins => exact absurd hdec (hd ins)
    | error e => exact ⟨_, step_of_illegal hs (fetch_of_lt hpc) hdec, rfl, raise_unchanged _ _⟩

/-- Settles O36: the cycle looks at `fault` before anything else. -/
theorem haltedBlockDoesNothing : Obligations.HaltedBlockDoesNothing := by
  intro s r hr
  have hsome : s.fault.isSome = true := by rw [hr]; rfl
  exact ⟨step_of_halted hsome, cycle_of_halted hsome⟩

/-- Settles O37: the record by the cases of a step that faults. -/
theorem faultsArePrecise : Obligations.FaultsArePrecise := by
  intro s t r hs h hf
  obtain ⟨r', rfl, hpc, hword⟩ := step_of_fault hs h (by simp [hf])
  obtain rfl : r' = r := by simpa using hf
  refine ⟨raise_clearDraw_unchanged s _, rfl, hpc, hword.trans ?_⟩
  cases fetch s <;> rfl

/-- Settles O39: by the fault recorded after the step, and before it. -/
theorem everyStepAnswersNext : Obligations.EveryStepAnswersNext := by
  intro s
  obtain ⟨t, h⟩ := step_next s
  refine ⟨t, h, ?_⟩
  cases hf : t.fault with
  | none =>
    obtain ⟨hsome, rfl⟩ | ⟨-, r, -, rfl⟩ | ⟨-, w, e, -, -, rfl⟩ | ⟨ins, u, hins, -, -⟩ := step_cases h
    case inl => simp [hf] at hsome
    case inr.inl => cases hf
    case inr.inr.inl => cases hf
    case inr.inr.inr => exact .inl ⟨ins, hins, h, hf⟩
  | some r =>
    cases hs : s.fault with
    | none => exact .inr (.inl ⟨rfl, r, rfl⟩)
    | some r' =>
      rw [step_of_halted (by simp [hs])] at h
      cases h
      exact .inr (.inr ⟨by simp, rfl⟩)

/-- Settles O41: the timers the instruction leaves, decremented. -/
theorem timersTickOncePerCycle : Obligations.TimersTickOncePerCycle := by
  intro s t ins h
  obtain ⟨u, hu, -, rfl⟩ := h.exec_then_tick
  rw [tickTimers_dt, tickTimers_st, decrement_toNat, decrement_toNat, exec_dt hu, exec_st hu]
  cases ins <;> exact ⟨rfl, rfl⟩

/-- Settles O42: `draw` starts cleared, and only these two instructions write it. -/
theorem drawFlagExactly : Obligations.DrawFlagExactly := by
  intro s t ins h
  obtain ⟨u, hu, hf, rfl⟩ := h.exec_then_tick
  rw [tickTimers_draw]
  exact exec_draw hu (clearDraw_draw s) hf

/-- Settles O43: part by part. -/
theorem writersOfState : Obligations.WritersOfState := fun _ _ h =>
  ⟨step_keys h, step_i_writer h, step_stack_writer h, step_sp_writer h, step_gfx_writer h,
    fun _ => step_readV_writer h, fun _ => step_readByte_writer h⟩

end Sys2Proof

namespace Sys2Proof.Machine

/-! ### The instructions with a check of their own, case by case (60_exceptions.md R302, R303, R307; R261) -/

section
variable {s : State} {x : Nibble}

theorem exec_ret_of_empty (h : s.sp.val = 0) :
    exec .ret s = .next (raise s (plainRecord .stackUnderflow s.pc (encode .ret))) :=
  dif_pos h

theorem exec_ret_of_nonempty (h : s.sp.val ≠ 0) :
    exec .ret s = .next (jump (pop s) (s.stack[s.sp.val - 1]'(by omega) + 2)) :=
  dif_neg h

theorem exec_call_of_lt (nnn : Addr12) (h : s.sp.val < 16) :
    exec (.call nnn) s = .next (jump (push s s.pc h) (target nnn)) :=
  dif_pos h

theorem exec_call_of_full (nnn : Addr12) (h : s.sp.val = 16) :
    exec (.call nnn) s = .next (raise s (plainRecord .stackOverflow s.pc (encode (.call nnn)))) :=
  dif_neg (by omega)

theorem keySkip_of_lt (word : Word) (want : Bool) (h : (readV s x).toNat < 16) :
    keySkip word x want s = .next (skipIf (s.keys[(readV s x).toNat]'h == want) s) :=
  dif_pos h

theorem keySkip_of_ge (word : Word) (want : Bool) (h : 15 < (readV s x).toNat) :
    keySkip word x want s = .next (raise s (keyRecord s.pc word (readV s x))) :=
  dif_neg (by omega)

theorem exec_ldVK_of_some {k : Fin 16} (h : firstKey s.keys = some k) :
    exec (.ldVK x) s = .next (advance (writeV s x (BitVec.ofNat 8 k.val))) := by
  simp only [exec, execLdVK, h]

theorem exec_ldVK_of_none (h : firstKey s.keys = none) : exec (.ldVK x) s = .next (advance s) := by
  simp only [exec, execLdVK, h]

end

/-! ### Parts that few instructions read or write (10_state.md §13) -/

/-- Other values for some of the parts `ST`, `keys`, `draws` and the stack. -/
structure Overlay where
  st : Option Byte := none
  keys : Option (Vector Bool 16) := none
  draws : Option Nat := none
  stack : Option (Vector Word 16) := none

/-- The state with the other values put in. -/
def Overlay.on (o : Overlay) (s : State) : State :=
  { s with st := o.st.getD s.st, keys := o.keys.getD s.keys, draws := o.draws.getD s.draws,
           stack := o.stack.getD s.stack }

/-- The overlay leaves alone what the instruction reads or writes of those parts. -/
def Overlay.avoids (o : Overlay) : Instr → Prop
  | .skp _ | .sknp _ | .ldVK _ => o.keys = none
  | .rnd _ _ => o.draws = none
  | .ldStV _ => o.st = none
  | .call _ | .ret => o.stack = none
  | _ => True

section
variable {s t : State} {ins : Instr} {o : Overlay}

theorem avoids_keys (h : ∀ x, ins ≠ .skp x ∧ ins ≠ .sknp x ∧ ins ≠ .ldVK x) (k : Vector Bool 16) :
    Overlay.avoids { keys := some k } ins := by
  cases ins
  case skp x | sknp x | ldVK x => simpa using h x
  case rnd | ldStV | call | ret => rfl
  all_goals exact True.intro

theorem avoids_draws (h : ∀ x kk, ins ≠ .rnd x kk) (d : Nat) : Overlay.avoids { draws := some d } ins := by
  cases ins
  case rnd x kk => exact absurd rfl (h x kk)
  case skp | sknp | ldVK | ldStV | call | ret => rfl
  all_goals exact True.intro

theorem avoids_st (h : ∀ x, ins ≠ .ldStV x) (b : Byte) : Overlay.avoids { st := some b } ins := by
  cases ins
  case ldStV x => exact absurd rfl (h x)
  case skp | sknp | ldVK | rnd | call | ret => rfl
  all_goals exact True.intro

/-- An overlay of the stack is avoided by the instructions that leave the stack and `SP` alone. -/
theorem parts_of_avoids_stack {other : Vector Word 16} (h : Overlay.avoids { stack := some other } ins) :
    .sp ∉ .fault :: writtenParts ins ∧ .stack ∉ .fault :: writtenParts ins := by
  cases ins
  case call | ret => cases h
  all_goals simp [writtenParts]

theorem accessing_overlay {word : Word} {kind : AccessKind} {len : Nat} {after : State}
    (h : accessing s word kind len after = .next t) :
    accessing (o.on s) word kind len (o.on after) = .next (o.on t) := by
  obtain ⟨hb, rfl⟩ | ⟨hb, rfl⟩ := accessing_cases h
  · exact accessing_of_beyond (s := o.on s) hb
  · exact accessing_of_inBounds (s := o.on s) hb

theorem keySkip_overlay {word : Word} {x : Nibble} {want : Bool} (hkeys : o.keys = none)
    (h : keySkip word x want s = .next t) : keySkip word x want (o.on s) = .next (o.on t) := by
  obtain ⟨st, keys, draws, stack⟩ := o
  subst hkeys
  by_cases hlt : (readV s x).toNat < 16
  · rw [keySkip_of_lt _ _ hlt] at h
    cases h
    exact keySkip_of_lt (s := Overlay.on _ s) _ _ hlt
  · have hge : 15 < (readV s x).toNat := by omega
    rw [keySkip_of_ge _ _ hge] at h
    cases h
    exact keySkip_of_ge (s := Overlay.on _ s) _ _ hge

/-- Executing an instruction the overlay avoids commutes with the overlay. -/
theorem exec_overlay (ho : o.avoids ins) (h : exec ins s = .next t) : exec ins (o.on s) = .next (o.on t) := by
  cases ins
  case skp | sknp => exact keySkip_overlay ho h
  case drw | ldBV | ldMemV | ldVMem => exact accessing_overlay h
  case ldVK =>
    obtain ⟨st, keys, draws, stack⟩ := o
    subst ho
    cases hk : firstKey s.keys with
    | some k => rw [exec_ldVK_of_some hk] at h; cases h; exact exec_ldVK_of_some hk
    | none => rw [exec_ldVK_of_none hk] at h; cases h; exact exec_ldVK_of_none hk
  case ret =>
    obtain ⟨st, keys, draws, stack⟩ := o
    subst ho
    by_cases hsp : s.sp.val = 0
    · rw [exec_ret_of_empty hsp] at h; cases h; exact exec_ret_of_empty hsp
    · rw [exec_ret_of_nonempty hsp] at h; cases h; exact exec_ret_of_nonempty hsp
  case call nnn =>
    obtain ⟨st, keys, draws, stack⟩ := o
    subst ho
    by_cases hsp : s.sp.val < 16
    · rw [exec_call_of_lt nnn hsp] at h; cases h; exact exec_call_of_lt (s := Overlay.on _ s) nnn hsp
    · have hfull : s.sp.val = 16 := by omega
      rw [exec_call_of_full nnn hfull] at h; cases h; exact exec_call_of_full (s := Overlay.on _ s) nnn hfull
  case rnd | ldStV =>
    obtain ⟨st, keys, draws, stack⟩ := o
    subst ho
    cases h
    rfl
  all_goals cases h; rfl

/-- The fetch reads none of the overlaid parts, nor does the decoder. -/
theorem nextInstr_overlay (o : Overlay) (s : State) : nextInstr (o.on s) = nextInstr s := rfl

theorem overlay_fault (o : Overlay) (s : State) : (o.on s).fault = s.fault := rfl

theorem tickTimers_overlay (hst : o.st = none) : tickTimers (o.on s) = o.on (tickTimers s) := by
  obtain ⟨st, keys, draws, stack⟩ := o
  subst hst
  rfl

/-- A whole step commutes with an overlay, but for `ST`, which the timers decrement. -/
theorem step_overlay (ho : o.avoids ins) (hst : o.st = none) (hins : nextInstr s = some ins) (h : step s = .next t) :
    step (o.on s) = .next (o.on t) := by
  obtain ⟨u, hu⟩ := exec_next ins (clearDraw s)
  rw [step_of_exec hins hu] at h
  cases h
  have hu' : exec ins (clearDraw (o.on s)) = .next (o.on u) := exec_overlay ho hu
  rw [step_of_exec ((nextInstr_overlay o s).trans hins) hu']
  rw [overlay_fault, tickTimers_overlay hst]
  split <;> rfl

theorem step_setST (hins : nextInstr s = some ins) (h : step s = .next t) (b : Byte) :
    ∃ b', step (setST s b) = .next (setST t b') := by
  by_cases hst : ∃ x, ins = .ldStV x
  · obtain ⟨x, rfl⟩ := hst
    have hsame : step (setST s b) = step s := by
      rw [step_of_nextInstr hins, step_of_nextInstr (show nextInstr (setST s b) = _ from hins)]
      rfl
    exact ⟨t.st, by rw [hsame, h]; rfl⟩
  · push Not at hst
    obtain ⟨u, hu⟩ := exec_next ins (clearDraw s)
    rw [step_of_exec hins hu] at h
    cases h
    have hu' : exec ins (clearDraw (setST s b)) = .next (setST u b) := exec_overlay (avoids_st hst b) hu
    rw [step_of_exec (show nextInstr (setST s b) = _ from hins) hu']
    cases hf : u.fault <;> simp only [setST_fault, hf, Option.isSome_none, Option.isSome_some]
    · exact ⟨decrement b, rfl⟩
    · exact ⟨b, rfl⟩

/-- `draw` is cleared before anything is read. -/
theorem step_setDraw (hins : nextInstr s = some ins) (b : Bool) : step { s with draw := b } = step s := by
  rw [step_of_nextInstr hins, step_of_nextInstr (show nextInstr { s with draw := b } = _ from hins)]
  rfl

/-! ### Stale stack slots (10_state.md R46) -/

/-- The stack agrees with another one below `SP`. -/
def AgreesBelowSp (s : State) (other : Vector Word 16) : Prop :=
  ∀ j : Fin 16, j.val < s.sp.val → other[j.val]'j.isLt = s.stack[j.val]'j.isLt

/-- A return reads the slot below `SP`, a call writes the slot at `SP`; no other instruction touches the stack. -/
theorem exec_staleSlots {other : Vector Word 16} (hagree : AgreesBelowSp s other) (h : exec ins s = .next t) :
    ∃ other', exec ins { s with stack := other } = .next { t with stack := other' } ∧ AgreesBelowSp t other' := by
  by_cases hkept : Overlay.avoids { stack := some other } ins
  case pos =>
    have hframe := exec_unchanged h
    obtain ⟨hsp, hstack⟩ := parts_of_avoids_stack hkept
    refine ⟨other, exec_overlay hkept h, fun j hj => ?_⟩
    rw [hframe.sp_eq hsp] at hj
    rw [hframe.stack_eq hstack, hagree j hj]
  case neg =>
    cases ins
    case ret =>
      by_cases hsp : s.sp.val = 0
      · rw [exec_ret_of_empty hsp] at h
        cases h
        exact ⟨other, exec_ret_of_empty (s := { s with stack := other }) hsp, hagree⟩
      · rw [exec_ret_of_nonempty hsp] at h
        cases h
        have hslot := hagree ⟨s.sp.val - 1, by omega⟩ (show s.sp.val - 1 < s.sp.val by omega)
        refine ⟨other, ?_, fun j (hj : j.val < s.sp.val - 1) => hagree j (by omega)⟩
        rw [← hslot]
        exact exec_ret_of_nonempty (s := { s with stack := other }) hsp
    case call nnn =>
      by_cases hsp : s.sp.val < 16
      · rw [exec_call_of_lt nnn hsp] at h
        cases h
        refine ⟨other.set s.sp.val s.pc hsp, exec_call_of_lt (s := { s with stack := other }) nnn hsp,
          fun j (hj : j.val < s.sp.val + 1) => ?_⟩
        simp only [jump_stack, push_stack, Vector.getElem_set]
        split
        · rfl
        · exact hagree j (by omega)
      · rw [exec_call_of_full nnn (by omega)] at h
        cases h
        exact ⟨other, exec_call_of_full (s := { s with stack := other }) nnn (show s.sp.val = 16 by omega), hagree⟩
    case skp | sknp | ldVK | rnd | ldStV => exact absurd rfl hkept
    all_goals exact absurd True.intro hkept

theorem step_staleSlots {other : Vector Word 16} (hagree : AgreesBelowSp s other) (h : step s = .next t) :
    ∃ other', step { s with stack := other } = .next { t with stack := other' } ∧ AgreesBelowSp t other' := by
  obtain ⟨hf, rfl⟩ | ⟨hf, r, hr, rfl⟩ | ⟨hf, w, e, hw, hd, rfl⟩ | ⟨ins, u, hins, hu, rfl⟩ := step_cases h
  case inl => exact ⟨other, step_of_halted hf, hagree⟩
  case inr.inl => exact ⟨other, step_of_fetch_error (s := { s with stack := other }) hf hr, hagree⟩
  case inr.inr.inl => exact ⟨other, step_of_illegal (s := { s with stack := other }) hf hw hd, hagree⟩
  case inr.inr.inr =>
    obtain ⟨other', hu', hagree'⟩ := exec_staleSlots (s := clearDraw s) hagree hu
    refine ⟨other', ?_, ?_⟩
    · rw [step_of_exec (show nextInstr { s with stack := other } = _ from hins) hu']
      split <;> rfl
    · split <;> exact hagree'

end

end Sys2Proof.Machine

namespace Sys2Proof

open Machine

/-- Settles O46: `draw` is cleared first; the other parts are overlays the instruction avoids. -/
theorem hiddenStateIsUnread : Obligations.HiddenStateIsUnread := by
  intro s ins hins
  obtain ⟨t, h⟩ := step_next s
  refine ⟨t, h, fun b => (step_setDraw hins b).trans h, step_setST hins h, fun hne k => ?_, fun hne d => ?_⟩
  · exact step_overlay (avoids_keys hne k) rfl hins h
  · exact step_overlay (avoids_draws hne d) rfl hins h

/-- Settles O47: by the cases of a step; of the instructions, a return and a call decide it. -/
theorem staleSlotsUnobservable : Obligations.StaleSlotsUnobservable := fun _ _ _ => step_staleSlots

end Sys2Proof

namespace Sys2Proof.Machine

/-! ### Instructions with one update (41_family_0_1_2.md, 42_family_3_to_7.md, 44_family_9_to_C.md, 47_family_F.md) -/

section
variable (s : State) (x y : Nibble) (kk r : Byte)

theorem exec_cls : exec .cls s = .next (advance { s with gfx := blankPixels, draw := true }) := rfl

theorem exec_seReg : exec (.seReg x y) s = .next (skipIf (readV s x == readV s y) s) := rfl

theorem exec_sneReg : exec (.sneReg x y) s = .next (skipIf (readV s x != readV s y) s) := rfl

theorem exec_addIV : exec (.addIV x) s = .next (advance (setI s (s.i + wide (readV s x)))) := rfl

theorem execWith_rnd : execWith r (.rnd x kk) s = .next (rndWith r x kk s) := rfl

theorem exec_rnd : exec (.rnd x kk) s = .next (rndWith (Config.drawByte s.draws) x kk s) := rfl

theorem exec_ldVDt : exec (.ldVDt x) s = .next (advance (writeV s x s.dt)) := rfl

theorem exec_ldDtV : exec (.ldDtV x) s = .next (advance (setDT s (readV s x))) := rfl

theorem exec_ldStV : exec (.ldStV x) s = .next (advance (setST s (readV s x))) := rfl

/-- The effect and the frame of `Cxkk` with the byte `r`. -/
theorem rndWith_effect : readV (rndWith r x kk s) x = r &&& kk ∧
    (∀ z, z ≠ x → readV (rndWith r x kk s) z = readV s z) ∧ (rndWith r x kk s).pc = s.pc + 2 ∧
    (rndWith r x kk s).draws = s.draws + 1 ∧ Unchanged [.v, .pc, .draws] s (rndWith r x kk s) :=
  ⟨readV_writeV_same _ x _, fun _ hz => readV_writeV_ne { s with draws := s.draws + 1 } _ hz, rfl, rfl,
    by simp [Unchanged, readByte]⟩

end

/-! ### The flag instructions of family 8 (43_family_8.md R194 to R198) -/

section
variable (s : State) (x y : Nibble)

/-- The flag, then the destination: what every flag instruction of family 8 writes. -/
def flagThenResult (f b : Byte) : State := advance (writeV (setVF s f) x b)

theorem flagThenResult_effect (f b : Byte) : readV (flagThenResult s x f b) x = b ∧
    (x ≠ 0xF#4 → readV (flagThenResult s x f b) 0xF#4 = f) ∧
    (∀ z, z ≠ x → z ≠ 0xF#4 → readV (flagThenResult s x f b) z = readV s z) ∧
    (flagThenResult s x f b).pc = s.pc + 2 ∧ Unchanged [.v, .pc] s (flagThenResult s x f b) :=
  ⟨readV_writeV_same _ x b, fun hx => (readV_writeV_ne _ b hx.symm).trans (readV_writeV_same s _ f),
    fun _ hz hF => (readV_writeV_ne _ b hz).trans (readV_writeV_ne s f hF), rfl,
    (((Unchanged.refl _ s).writeV (by decide) _ f).writeV (by decide) x b).advance (by decide)⟩

theorem exec_addReg : exec (.addReg x y) s =
    .next (flagThenResult s x (carryFlag (readV s x) (readV s y)) (readV s x + readV s y)) := rfl

/-- The flag of `V[a] > V[b]`, then `V[x]` the difference, whose operands are read after the flag write. -/
def subtractInto (a b : Nibble) : State :=
  flagThenResult s x (greaterFlag (readV s a) (readV s b))
    (readV (setVF s (greaterFlag (readV s a) (readV s b))) a - readV (setVF s (greaterFlag (readV s a) (readV s b))) b)

theorem exec_sub : exec (.sub x y) s = .next (subtractInto s x x y) := rfl

theorem exec_subn : exec (.subn x y) s = .next (subtractInto s x y x) := rfl

theorem exec_shr : exec (.shr x y) s = .next (flagThenResult s x (lowBitFlag (readV s x))
    (readV (setVF s (lowBitFlag (readV s x))) x >>> 1)) := rfl

theorem exec_shl : exec (.shl x y) s = .next (flagThenResult s x (highBitFlag (readV s x))
    (readV (setVF s (highBitFlag (readV s x))) x <<< 1)) := rfl

theorem readV_setVF_toNat (f : Byte) :
    (readV (setVF s f) x).toNat = if x = 0xF#4 then f.toNat else (readV s x).toNat := by
  rw [readV_setVF]
  split <;> rfl

end

theorem flag_toNat (p : Prop) [Decidable p] : (flag (decide p)).toNat = if p then 1 else 0 := by
  by_cases h : p <;> simp [flag, h]

theorem carryFlag_toNat (a b : Byte) : (carryFlag a b).toNat = if 255 < a.toNat + b.toNat then 1 else 0 :=
  flag_toNat _

theorem greaterFlag_toNat (a b : Byte) : (greaterFlag a b).toNat = if b.toNat < a.toNat then 1 else 0 :=
  flag_toNat _

theorem lowBitFlag_toNat (a : Byte) : (lowBitFlag a).toNat = a.toNat % 2 := by
  rw [lowBitFlag, BitVec.toNat_and]
  exact Nat.and_one_is_mod _

theorem highBitFlag_toNat (a : Byte) : (highBitFlag a).toNat = a.toNat / 128 := by
  have ha : a.toNat < 256 := a.isLt
  calc (highBitFlag a).toNat = a.toNat / 128 % 2 := by
        rw [highBitFlag, BitVec.toNat_and, BitVec.toNat_ushiftRight, Nat.shiftRight_eq_div_pow]
        exact Nat.and_one_is_mod _
    _ = a.toNat / 128 := Nat.mod_eq_of_lt (by omega)

theorem byte_sub_toNat (a b : Byte) : (a - b).toNat = (a.toNat + 256 - b.toNat) % 256 := by
  have hb : b.toNat < 256 := b.isLt
  rw [BitVec.toNat_sub]
  omega

theorem byte_shiftRight_one_toNat (a : Byte) : (a >>> 1).toNat = a.toNat / 2 := by
  rw [BitVec.toNat_ushiftRight, Nat.shiftRight_eq_div_pow]

theorem byte_shiftLeft_one_toNat (a : Byte) : (a <<< 1).toNat = a.toNat * 2 % 256 := by
  rw [BitVec.toNat_shiftLeft, Nat.shiftLeft_eq]

/-- Each operand of the difference is the flag if it is `VF`. -/
theorem subtractInto_effect (s : State) (x a b : Nibble) :
    (∀ f : Nat, f = (if (readV s b).toNat < (readV s a).toNat then 1 else 0) →
      (readV (subtractInto s x a b) x).toNat = ((if a = 0xF#4 then f else (readV s a).toNat) + 256 -
        (if b = 0xF#4 then f else (readV s b).toNat)) % 256 ∧
      (x ≠ 0xF#4 → (readV (subtractInto s x a b) 0xF#4).toNat = f)) ∧
    (∀ z, z ≠ x → z ≠ 0xF#4 → readV (subtractInto s x a b) z = readV s z) ∧
    (subtractInto s x a b).pc = s.pc + 2 ∧ Unchanged [.v, .pc] s (subtractInto s x a b) := by
  obtain ⟨hx, hF, hframe⟩ := flagThenResult_effect s x (greaterFlag (readV s a) (readV s b))
    (readV (setVF s (greaterFlag (readV s a) (readV s b))) a - readV (setVF s (greaterFlag (readV s a) (readV s b))) b)
  refine ⟨fun f hf => ?_, hframe⟩
  rw [← greaterFlag_toNat] at hf
  subst hf
  exact ⟨by rw [subtractInto, hx, byte_sub_toNat, readV_setVF_toNat, readV_setVF_toNat],
    fun hne => by rw [subtractInto, hF hne]⟩

/-! ### Faults raised by an instruction (60_exceptions.md R302 to R304, R307) -/

theorem raisesFrom_raise (s : State) (r : FaultRecord) : RaisesFrom s r (.next (raise s r)) :=
  ⟨_, rfl, rfl, raise_unchanged s r⟩

theorem accessing_raisesFrom {s : State} {word : Word} {kind : AccessKind} {len : Nat} {after : State}
    (hlen : 0 < len) (h : 0xFFF < s.i.toNat + len - 1) :
    RaisesFrom s (boundsRecord s.pc (some word) kind s.i.toNat) (accessing s word kind len after) := by
  rw [accessing_of_beyond (beyondMemory_iff.mpr ⟨hlen, h⟩)]
  exact raisesFrom_raise ..

/-! ### Memory instructions inside memory (47_family_F.md R266 to R269) -/

section
variable {s : State} {x : Nibble}

theorem exec_ldBV_of_fits (h : s.i.toNat + 2 ≤ 0xFFF) : exec (.ldBV x) s =
    .next (advance { s with mem := Memory.writeBytes s.mem s.i.toNat (bcdDigits (readV s x)) }) :=
  accessing_of_inBounds (beyondMemory_eq_false.mpr (.inr h))

theorem exec_ldMemV_of_fits (h : s.i.toNat + x.toNat ≤ 0xFFF) : exec (.ldMemV x) s =
    .next (advance { s with mem := storeRegs s.mem s.i.toNat s.v x }) :=
  accessing_of_inBounds (beyondMemory_eq_false.mpr (.inr h))

theorem exec_ldVMem_of_fits (h : s.i.toNat + x.toNat ≤ 0xFFF) : exec (.ldVMem x) s =
    .next (advance { s with v := loadRegs s.mem s.i.toNat s.v x }) :=
  accessing_of_inBounds (beyondMemory_eq_false.mpr (.inr h))

/-- The bytes of the block store are the registers. -/
theorem read_storeRegs (hmem : Memory.wf s.mem = true) (h : s.i.toNat + x.toNat ≤ 0xFFF) {z : Nibble}
    (hz : z.toNat ≤ x.toNat) : Memory.read (storeRegs s.mem s.i.toNat s.v x) (s.i.toNat + z.toNat) = readV s z :=
  read_storeRegs_inside hmem s.i.toNat s.v x (Nat.lt_succ_of_le h) ⟨z.toNat, z.isLt⟩ hz

theorem readV_loadRegs (m : Memory) (base : Nat) (z : Nibble) :
    readV { s with v := loadRegs m base s.v x } z =
      if z.toNat ≤ x.toNat then Memory.read m (base + z.toNat) else readV s z :=
  get_loadRegs m base s.v x ⟨z.toNat, z.isLt⟩

theorem bcdDigits_toNat (b : Byte) :
    (bcdDigits b).map BitVec.toNat = [b.toNat / 100, b.toNat / 10 % 10, b.toNat % 10] := by
  have hb : b.toNat < 256 := b.isLt
  have hhundreds : b.toNat / 100 < 2 ^ 8 := by omega
  have htens : b.toNat / 10 % 10 < 2 ^ 8 := by omega
  have hones : b.toNat % 10 < 2 ^ 8 := by omega
  simp only [bcdDigits, List.map_cons, List.map_nil, BitVec.toNat_ofNat, Nat.mod_eq_of_lt hhundreds,
    Nat.mod_eq_of_lt htens, Nat.mod_eq_of_lt hones]

/-- The bytes of `Fx33` are the digits. -/
theorem read_bcdDigits (hmem : Memory.wf s.mem = true) (h : s.i.toNat + 2 ≤ 0xFFF) (b : Byte) {k : Nat} (hk : k < 3) :
    (Memory.read (Memory.writeBytes s.mem s.i.toNat (bcdDigits b)) (s.i.toNat + k)).toNat =
      [b.toNat / 100, b.toNat / 10 % 10, b.toNat % 10][k] := by
  rw [read_writeBytes_inside hmem _ (bcdDigits b) (show s.i.toNat + 3 ≤ 0x1000 by omega) hk]
  simp only [← bcdDigits_toNat, List.getElem_map]
  rfl

end

end Sys2Proof.Machine

namespace Sys2Proof

open Machine

/-- Settles O9: the blank buffer has every pixel off. -/
theorem clearDisplay : Obligations.ClearDisplay := fun s =>
  ⟨_, exec_cls s, pixelOf_blankPixels, rfl, rfl, by simp [Unchanged, readByte]⟩

/-- Settles O10: by the two cases of the pop. -/
theorem returnPopsAndAddsTwo : Obligations.ReturnPopsAndAddsTwo := by
  refine fun s => ⟨fun j hj => ?_, fun hsp => ?_⟩
  · have hpop : s.sp.val - 1 = j.val := by omega
    exact ⟨_, exec_ret_of_nonempty (by omega), hpop, by simp [hpop], by simp [Unchanged, readByte]⟩
  · rw [exec_ret_of_empty hsp]
    exact raisesFrom_raise ..

/-- Settles O12: by the two cases of the push. -/
theorem callPushesItsOwnAddress : Obligations.CallPushesItsOwnAddress := by
  refine fun s nnn => ⟨fun j hj => ?_, fun hsp => ?_⟩
  · have hlt : s.sp.val < 16 := by omega
    refine ⟨_, exec_call_of_lt nnn hlt, by simp [hj], fun k hk => ?_, by simp [hj], target_toNat nnn,
      by simp [Unchanged, readByte]⟩
    have hne : s.sp.val ≠ k.val := fun e => hk (Fin.ext (by omega))
    simp [Vector.getElem_set_ne _ _ hne]
  · rw [exec_call_of_full nnn hsp]
    exact raisesFrom_raise ..

/-- Settles O14: each instruction as a skip on its own condition. -/
theorem skipOnRegisters : Obligations.SkipOnRegisters := by
  refine fun s x y => ⟨?_, ?_⟩
  · exact ⟨_, exec_seReg s x y, by simp, (Unchanged.refl _ s).skipIf (by decide) _⟩
  · exact ⟨_, exec_sneReg s x y, by simp, (Unchanged.refl _ s).skipIf (by decide) _⟩

/-- Settles O17: the sum and the carry are of the old values. -/
theorem addWithCarryOut : Obligations.AddWithCarryOut := by
  intro s x y
  obtain ⟨hx, hF, hframe⟩ :=
    flagThenResult_effect s x (carryFlag (readV s x) (readV s y)) (readV s x + readV s y)
  refine ⟨_, exec_addReg s x y, ?_, fun hne => ?_, hframe⟩
  · rw [hx, BitVec.toNat_add]
  · rw [hF hne, carryFlag_toNat]

/-- Settles O18: `8xy5` and `8xy7` are one subtraction with the operands exchanged. -/
theorem subtractBothWays : Obligations.SubtractBothWays := fun s x y =>
  ⟨⟨_, exec_sub s x y, subtractInto_effect s x x y⟩, ⟨_, exec_subn s x y, subtractInto_effect s x y x⟩⟩

/-- Settles O19: the register is shifted after the flag write, so it is the flag if it is `VF`. -/
theorem shiftsByOne : Obligations.ShiftsByOne := by
  refine fun s x y => ⟨?_, ?_⟩
  · obtain ⟨hx, hF, hframe⟩ := flagThenResult_effect s x (lowBitFlag (readV s x))
      (readV (setVF s (lowBitFlag (readV s x))) x >>> 1)
    refine ⟨_, exec_shr s x y, ?_, fun hne => ?_, hframe⟩
    · rw [hx, byte_shiftRight_one_toNat, readV_setVF_toNat, lowBitFlag_toNat]
    · rw [hF hne, lowBitFlag_toNat]
  · obtain ⟨hx, hF, hframe⟩ := flagThenResult_effect s x (highBitFlag (readV s x))
      (readV (setVF s (highBitFlag (readV s x))) x <<< 1)
    refine ⟨_, exec_shl s x y, ?_, fun hne => ?_, hframe⟩
    · rw [hx, byte_shiftLeft_one_toNat, readV_setVF_toNat, highBitFlag_toNat]
    · rw [hF hne, highBitFlag_toNat]

/-- Settles O21: the sum of two words is modulo 65536. -/
theorem addToIndex : Obligations.AddToIndex := by
  intro s x
  have hsum : (s.i + wide (readV s x)).toNat = (s.i.toNat + (readV s x).toNat) % 65536 := by
    rw [BitVec.toNat_add, wide_toNat]
  exact ⟨_, exec_addIV s x, hsum, rfl, advance_setI_unchanged s _⟩

/-- Settles O23: the cycle's byte and the free byte go through the same update. -/
theorem randomByteMasked : Obligations.RandomByteMasked := by
  refine fun s x kk => ⟨fun r => ?_, ?_⟩
  · obtain ⟨hx, hkept, hpc, -, hframe⟩ := rndWith_effect s x kk r
    exact ⟨_, execWith_rnd s x kk r, hx, hkept, hpc, hframe⟩
  · exact ⟨_, exec_rnd s x kk, rndWith_effect s x kk _⟩

/-- Settles O24: by the two cases of the key skip. -/
theorem keySkips : Obligations.KeySkips := by
  refine fun s x => ⟨fun k hk => ?_, fun hgt ins hins => ?_⟩
  · have hlt : (readV s x).toNat < 16 := by omega
    have hkey : s.keys[(readV s x).toNat] = s.keys[k.val] := by simp only [hk]
    exact ⟨⟨_, keySkip_of_lt _ _ hlt, by simp [hkey], (Unchanged.refl _ s).skipIf (by decide) _⟩,
      ⟨_, keySkip_of_lt _ _ hlt, by simp [hkey], (Unchanged.refl _ s).skipIf (by decide) _⟩⟩
  · have hraise (word : Word) (want : Bool) :
        RaisesFrom s (keyRecord s.pc word (readV s x)) (keySkip word x want s) := by
      rw [keySkip_of_ge word want hgt]
      exact raisesFrom_raise ..
    simp only [List.mem_cons, List.not_mem_nil, or_false] at hins
    obtain rfl | rfl := hins <;> exact hraise _ _

/-- Settles O25: by what the scan of the keys finds. -/
theorem keyCheckNeverWaits : Obligations.KeyCheckNeverWaits := by
  refine fun s x => ⟨fun k hk hlow => ?_, fun hnone => ?_⟩
  · obtain ⟨hx, hframe⟩ := advance_writeV_effect s x (BitVec.ofNat 8 k.val)
    have hk8 : (BitVec.ofNat 8 k.val).toNat = k.val := Nat.mod_eq_of_lt (by omega)
    exact ⟨_, exec_ldVK_of_some (firstKey_some.mpr ⟨hk, hlow⟩), by rw [hx, hk8], hframe⟩
  · exact ⟨_, exec_ldVK_of_none (firstKey_none.mpr hnone), rfl, (Unchanged.refl _ s).advance (by decide)⟩

/-- Settles O26: each transfer as its one update. -/
theorem timerTransfers : Obligations.TimerTransfers := fun s x =>
  ⟨⟨_, exec_ldVDt s x, advance_writeV_effect s x s.dt⟩,
    ⟨_, exec_ldDtV s x, rfl, rfl, by simp [Unchanged, readByte]⟩,
    ⟨_, exec_ldStV s x, rfl, rfl, by simp [Unchanged, readByte]⟩⟩

/-- Settles O29: the digits read back where they were written, and only there. -/
theorem decimalStore : Obligations.DecimalStore := by
  intro s x hmem hfit
  exact ⟨_, exec_ldBV_of_fits hfit, read_bcdDigits hmem hfit (readV s x) (k := 0) (by decide),
    read_bcdDigits hmem hfit (readV s x) (k := 1) (by decide),
    read_bcdDigits hmem hfit (readV s x) (k := 2) (by decide),
    fun a ha => read_writeBytes_outside _ _ _ ha, rfl,
    ((Unchanged.refl _ s).setMem (by decide) _).advance (by decide)⟩

/-- Settles O30: the registers read back where they were stored, and only there. -/
theorem storeRegisters : Obligations.StoreRegisters := by
  intro s x hmem hfit
  exact ⟨_, exec_ldMemV_of_fits hfit, fun z hz => read_storeRegs hmem hfit hz,
    fun a ha => read_storeRegs_outside _ _ _ _ ha, rfl,
    ((Unchanged.refl _ s).setMem (by decide) _).advance (by decide)⟩

/-- Settles O31: by the register's place in the block. -/
theorem loadRegisters : Obligations.LoadRegisters := by
  intro s x hfit
  refine ⟨_, exec_ldVMem_of_fits hfit, fun z hz => ?_, fun z hz => ?_, rfl, by simp [Unchanged, readByte]⟩
  · exact (readV_loadRegs _ _ z).trans (if_pos hz)
  · exact (readV_loadRegs _ _ z).trans (if_neg (Nat.not_le.mpr hz))

/-- Settles O32: the four checks are `accessing`'s, with their own lengths. -/
theorem boundsFaultsRecorded : Obligations.BoundsFaultsRecorded := by
  refine fun s => ⟨fun x y n hn h => ?_, fun x h => ?_, fun x h => ⟨?_, ?_⟩⟩
  · exact accessing_raisesFrom hn h
  · exact accessing_raisesFrom (len := 3) (by decide) h
  · exact accessing_raisesFrom (Nat.succ_pos _) h
  · exact accessing_raisesFrom (Nat.succ_pos _) h

/-- Settles O33: the load reads the bytes the store wrote. -/
theorem storeLoadRoundTrip : Obligations.StoreLoadRoundTrip := by
  intro s t u w x hmem hfit hstore hi hbytes hload z hz
  rw [exec_ldMemV_of_fits hfit] at hstore
  cases hstore
  have hi' : u.i = s.i := hi
  rw [exec_ldVMem_of_fits (by rw [hi']; exact hfit)] at hload
  cases hload
  calc readV (advance { u with v := loadRegs u.mem u.i.toNat u.v x }) z
      = readByte u (u.i.toNat + z.toNat) := (readV_loadRegs _ _ z).trans (if_pos hz)
    _ = Memory.read (storeRegs s.mem s.i.toNat s.v x) (s.i.toNat + z.toNat) := by rw [hi']; exact hbytes z hz
    _ = readV s z := read_storeRegs hmem hfit hz

end Sys2Proof

namespace Sys2Proof.Machine

/-! ### The whole sprite (45_family_D_draw.md R230 to R237) -/

/-- The sprite of `n` rows from `base`, placed at column `ox`, row `oy`, has a set bit at column `c`, row `r`. -/
def spriteBit (m : Memory) (base ox oy n c r : Nat) : Bool :=
  decide (oy ≤ r ∧ r < oy + n) && rowCovers ox (Memory.read m (base + (r - oy))) c

theorem spriteCovers_eq (s : State) (x y n : Nibble) (c : Fin 64) (r : Fin 32) : spriteCovers s x y n c r =
    spriteBit s.mem s.i.toNat (originColumn s x) (originRow s y) n.toNat c.val r.val := by
  rw [spriteCovers, spriteBit, rowCovers, Bool.and_comm (decide _) (decide _), Bool.and_assoc, readByte]

section
variable (m : Memory) (base ox oy n : Nat) (g : Pixels)

/-- The row below the sprite belongs to it no more. -/
theorem spriteBit_row_below {c r : Nat} (h : oy + n = r) : spriteBit m base ox oy n c r = false := by
  have hout : ¬ (oy ≤ r ∧ r < oy + n) := by omega
  simp [spriteBit, hout]

theorem spriteBit_succ (c r : Nat) : spriteBit m base ox oy (n + 1) c r =
    (spriteBit m base ox oy n c r || (decide (oy + n = r) && rowCovers ox (Memory.read m (base + n)) c)) := by
  by_cases h : oy + n = r
  · have hin : oy ≤ r ∧ r < oy + (n + 1) := by omega
    have hrow : r - oy = n := by omega
    rw [spriteBit_row_below m base ox oy n h, spriteBit, hrow, decide_eq_true hin, decide_eq_true h, Bool.false_or]
  · have hrows : (oy ≤ r ∧ r < oy + (n + 1)) ↔ (oy ≤ r ∧ r < oy + n) := by omega
    simp only [spriteBit, hrows, h, decide_false, Bool.false_and, Bool.or_false]

theorem plotSprite_succ : plotSprite m base ox oy (n + 1) g =
    plotRow (plotSprite m base ox oy n g) ox (oy + n) (Memory.read m (base + n)) := by
  simp only [plotSprite, List.range_succ, List.foldl_append, List.foldl_cons, List.foldl_nil]

/-- A sprite toggles exactly the pixels under its set bits: rows do not overlap. -/
theorem plotSprite_pixel (c : Fin 64) (r : Fin 32) : pixelOf (plotSprite m base ox oy n g).1 c r =
    (pixelOf g c r ^^ spriteBit m base ox oy n c.val r.val) := by
  induction n with
  | zero =>
    have hnone : decide (oy ≤ r.val ∧ r.val < oy + 0) = false := decide_eq_false (by omega)
    rw [spriteBit, hnone, Bool.false_and, Bool.xor_false]
    rfl
  | succ n ih =>
    rw [plotSprite_succ, plotRow_pixel, ih, spriteBit_succ]
    by_cases h : oy + n = r.val
    · simp [spriteBit_row_below m base ox oy n h]
    · simp [h]

/-- A sprite sets the collision flag if a set bit of it meets a pixel that was on before the draw. -/
theorem plotSprite_hit : (plotSprite m base ox oy n g).2 = true ↔
    ∃ (c : Fin 64) (r : Fin 32), pixelOf g c r = true ∧ spriteBit m base ox oy n c.val r.val = true := by
  induction n with
  | zero =>
    simp only [plotSprite, spriteBit, List.range_zero, List.foldl_nil, Bool.and_eq_true, decide_eq_true_eq]
    constructor
    · nofun
    · rintro ⟨c, r, -, hrow, -⟩
      omega
  | succ n ih =>
    have hrow (c : Fin 64) (r : Fin 32) (h : oy + n = r.val) :
        pixelOf (plotSprite m base ox oy n g).1 c r = pixelOf g c r := by
      rw [plotSprite_pixel, spriteBit_row_below m base ox oy n h, Bool.xor_false]
    rw [plotSprite_succ, plotRow_hit, ih]
    simp only [spriteBit_succ, Bool.or_eq_true, Bool.and_eq_true, decide_eq_true_eq]
    constructor
    · rintro (⟨c, r, hon, hbit⟩ | ⟨c, r, heq, hbit, hon⟩)
      · exact ⟨c, r, hon, .inl hbit⟩
      · exact ⟨c, r, (hrow c r heq).symm.trans hon, .inr ⟨heq, hbit⟩⟩
    · rintro ⟨c, r, hon, hbit | ⟨heq, hbit⟩⟩
      · exact .inl ⟨c, r, hon, hbit⟩
      · exact .inr ⟨c, r, heq, hbit, (hrow c r heq).trans hon⟩

end

section
variable {s : State} {x y n : Nibble}

theorem exec_drw_of_fits (h : n.toNat = 0 ∨ s.i.toNat + n.toNat - 1 ≤ 0xFFF) :
    exec (.drw x y n) s = .next (drawSprite x y n s) :=
  accessing_of_inBounds (beyondMemory_eq_false.mpr h)

theorem drawSprite_pixel (c : Fin 64) (r : Fin 32) :
    pixel (drawSprite x y n s) c r = (pixel s c r ^^ spriteCovers s x y n c r) := by
  rw [spriteCovers_eq]
  exact plotSprite_pixel ..

theorem drawSprite_VF : readV (drawSprite x y n s) 0xF#4 =
    if ∃ c r, pixel s c r = true ∧ spriteCovers s x y n c r = true then 1 else 0 := by
  simp only [spriteCovers_eq, pixel]
  rw [if_congr (plotSprite_hit ..).symm rfl rfl]
  exact readV_writeV_same _ _ _

theorem drawSprite_readV {z : Nibble} (hz : z ≠ 0xF#4) : readV (drawSprite x y n s) z = readV s z :=
  readV_writeV_ne _ _ hz

theorem drawSprite_unchanged : Unchanged [.gfx, .v, .draw, .pc] s (drawSprite x y n s) := by
  simp [Unchanged, drawSprite, readByte]

/-- With an origin that is not `VF`, a draw leaves the sprite where it was. -/
theorem spriteCovers_drawSprite (hx : x ≠ 0xF#4) (hy : y ≠ 0xF#4) (c : Fin 64) (r : Fin 32) :
    spriteCovers (drawSprite x y n s) x y n c r = spriteCovers s x y n c r := by
  simp only [spriteCovers, originColumn, originRow, drawSprite_readV hx, drawSprite_readV hy]
  rfl

end

/-! ### Two cycles in a row (41_family_0_1_2.md, 70_reset_and_hazards.md §4, 20_memory.md §5) -/

section
variable {s u : State} {ins : Instr}

theorem step_of_completed (hins : nextInstr s = some ins) (hu : exec ins (clearDraw s) = .next u)
    (hf : u.fault = none) : step s = .next (tickTimers u) := by
  rw [step_of_exec hins hu, hf]
  rfl

theorem step_call {nnn : Addr12} (hins : nextInstr s = some (.call nnn)) (hsp : (clearDraw s).sp.val < 16) :
    step s = .next (tickTimers (jump (push (clearDraw s) s.pc hsp) (target nnn))) :=
  step_of_completed hins (exec_call_of_lt nnn hsp) (nextInstr_eq_some.mp hins).1

theorem step_ret (hins : nextInstr s = some .ret) (hsp : s.sp.val ≠ 0) :
    step s = .next (tickTimers (jump (pop (clearDraw s)) (s.stack[s.sp.val - 1]'(by omega) + 2))) :=
  step_of_completed hins (exec_ret_of_nonempty (s := clearDraw s) hsp) (nextInstr_eq_some.mp hins).1

theorem step_ldDtV {x : Nibble} (hins : nextInstr s = some (.ldDtV x)) :
    step s = .next (tickTimers (advance (setDT (clearDraw s) (readV s x)))) :=
  step_of_completed hins (exec_ldDtV (clearDraw s) x) (nextInstr_eq_some.mp hins).1

theorem step_ldVDt {x : Nibble} (hins : nextInstr s = some (.ldVDt x)) :
    step s = .next (tickTimers (advance (writeV (clearDraw s) x s.dt))) :=
  step_of_completed hins (exec_ldVDt (clearDraw s) x) (nextInstr_eq_some.mp hins).1

theorem step_ldMemV {x : Nibble} (hins : nextInstr s = some (.ldMemV x)) (hfit : s.i.toNat + x.toNat ≤ 0xFFF) :
    step s = .next (tickTimers (advance { clearDraw s with mem := storeRegs s.mem s.i.toNat s.v x })) :=
  step_of_completed hins (exec_ldMemV_of_fits (s := clearDraw s) hfit) (nextInstr_eq_some.mp hins).1

end

/-! ### Reset memory and the display port (20_memory.md R73, 60_exceptions.md R320) -/

theorem resetByte_glyph {j : Nat} (hj : j < 80) :
    Memory.resetByte (Config.glyphBase + j) = Config.glyphs[j] := by
  rw [Memory.resetByte, dif_pos ⟨Nat.le_add_right .., by omega⟩]
  simp only [Nat.add_sub_cancel_left]

theorem resetByte_outside {a : Nat} (h : a < 0x050 ∨ 0x09F < a) : Memory.resetByte a = 0 :=
  dif_neg (by simp only [Config.glyphBase]; omega)

theorem displayBit_index (s : State) (c : Fin 64) (r : Fin 32) (h : r.val * 64 + c.val < 2048) :
    displayBit s ⟨r.val * 64 + c.val, h⟩ = pixel s c r := by
  have hc : (r.val * 64 + c.val) % 64 = c.val := by omega
  have hr : (r.val * 64 + c.val) / 64 = r.val := by omega
  simp only [displayBit, hc, hr]

end Sys2Proof.Machine

namespace Sys2Proof

open Machine

/-- Settles O27: a draw that fits is the whole sprite plotted. -/
theorem spriteTogglesAndCollides : Obligations.SpriteTogglesAndCollides := by
  intro s x y n hfit
  refine ⟨_, exec_drw_of_fits hfit, drawSprite_pixel, fun hhit => ?_, fun hmiss => ?_, fun z => drawSprite_readV,
    rfl, rfl, drawSprite_unchanged⟩
  · rw [drawSprite_VF, if_pos hhit]
  · rw [drawSprite_VF, if_neg]
    rintro ⟨c, r, hon, hbit⟩
    simp [hmiss c r hon] at hbit

/-- Settles O28: the second draw toggles the same pixels, and from an all-off buffer it meets exactly those the first
one turned on. -/
theorem drawTwiceRestores : Obligations.DrawTwiceRestores := by
  intro s t u x y n hx hy hfit ht hu
  rw [exec_drw_of_fits hfit] at ht
  cases ht
  rw [exec_drw_of_fits (s := drawSprite x y n s) hfit] at hu
  cases hu
  refine ⟨pixels_ext fun c r => ?_, fun hoff => ⟨?_, ?_⟩⟩
  · calc pixel (drawSprite x y n (drawSprite x y n s)) c r
        = ((pixel s c r ^^ spriteCovers s x y n c r) ^^ spriteCovers s x y n c r) := by
          rw [drawSprite_pixel, drawSprite_pixel, spriteCovers_drawSprite hx hy]
      _ = pixel s c r := by rw [Bool.xor_assoc, Bool.xor_self, Bool.xor_false]
  · rw [drawSprite_VF, if_neg]
    rintro ⟨c, r, hon, -⟩
    simp [hoff c r] at hon
  · rw [drawSprite_VF]
    refine if_congr ?_ rfl rfl
    simp only [drawSprite_pixel, spriteCovers_drawSprite hx hy, hoff, Bool.false_xor, and_self]

/-- Settles O48: the return pops the slot the call pushed. -/
theorem callReturnRoundTrip : Obligations.CallReturnRoundTrip := by
  intro s t nnn hcall hsp h hret
  have hlt : (clearDraw s).sp.val < 16 := hsp
  rw [step_call hcall hlt] at h
  cases h
  have hpushed : (tickTimers (jump (push (clearDraw s) s.pc hlt) (target nnn))).sp.val ≠ 0 :=
    Nat.succ_ne_zero s.sp.val
  exact ⟨_, step_ret hret hpushed, by simp, by simp, by simpa using (nextInstr_eq_some.mp hcall).1⟩

/-- Settles O49: the step that sets the timer already decrements it. -/
theorem timerReadBackIsOneLess : Obligations.TimerReadBackIsOneLess := by
  intro s t x y hset h hread
  rw [step_ldDtV hset] at h
  cases h
  refine ⟨_, step_ldVDt hread, ?_⟩
  rw [readV_tickTimers, readV_advance, readV_writeV_same]
  exact decrement_toNat _

/-- Settles O50: the store ends with `PC` at `I`, so the next fetch reads its first two bytes. -/
theorem overwrittenInstructionExecutes : Obligations.OverwrittenInstructionExecutes := by
  intro s t x hmem hins hx hi hfit h ins hd
  have hnext : s.pc + 2 = s.i := by
    apply BitVec.eq_of_toNat_eq
    have hlt : s.i.toNat < 65536 := s.i.isLt
    rw [BitVec.toNat_add, show (2 : Word).toNat = 2 from rfl]
    omega
  rw [step_ldMemV hins hfit] at h
  cases h
  refine nextInstr_eq_some.mpr ⟨(nextInstr_eq_some.mp hins).1, _, fetch_of_lt ?_, ?_⟩
  · simp only [tickTimers_pc, advance_pc, clearDraw_pc, hnext]
    omega
  · simp only [tickTimers_pc, advance_pc, clearDraw_pc, hnext]
    have hhi := read_storeRegs hmem hfit (z := 0#4) (Nat.zero_le _)
    have hlo := read_storeRegs hmem hfit (z := 1#4) hx
    rw [← hd, ← hhi, ← hlo]
    rfl

/-- Settles O55: by the phase of the block. -/
theorem loadFailsOrIsRefused : Obligations.LoadFailsOrIsRefused := by
  refine ⟨fun s => rfl, fun s requested data hbad => ?_, fun s rom => rfl, fun op hop => ?_⟩
  · have hload : loadRom (.bytes requested data) s = .error .sizeMismatch :=
      if_neg (by simp only [Config.maxRom]; omega)
    simp only [hostStep, loadBlock, hload]
  · cases op with
    | reset => exact absurd rfl hop
    | load rom | step r | setKeys keys | readOutputs => rfl

/-- Settles O7: the value of the word the two bytes make. -/
theorem fetchIsBigEndian : Obligations.FetchIsBigEndian := fun _ h =>
  ⟨_, fetch_of_lt h, wordOfBytes_toNat _ _⟩

/-- Settles O8: reset lists no byte, so every byte reads as reset leaves it. -/
theorem resetState : Obligations.ResetState := by
  refine ⟨fun d k => ?_, fun a ha => resetByte_outside (by omega), fun x => ?_, rfl, rfl, fun j => ?_, rfl, rfl, rfl,
    fun k => ?_, pixelOf_blankPixels, rfl, rfl⟩
  · rw [Nat.add_assoc]
    exact resetByte_glyph (by omega)
  · simp [readV, State.reset]
  · simp [State.reset]
  · simp [State.reset]

/-- Settles O56: the index of the port is undone by division and remainder. -/
theorem outputsPresentState : Obligations.OutputsPresentState := by
  refine fun s => ⟨fun c r => ?_, rfl, rfl, rfl, ?_⟩
  · rw [← displayBit_index s c r (by omega)]
    exact Vector.getElem_ofFn _
  · rw [show (outputs s).soundActive = (s.st != 0) from rfl, bne_iff_ne, Ne, ← BitVec.toNat_inj]
    exact Nat.pos_iff_ne_zero.symm

end Sys2Proof
